-- ==== Sys2Proof/Word.lean ====
section
/-!
DEFINITION. The word types of the machine. Everything the hardware moves is a 16-bit word; the
console moves bytes (R7, R9).
-/

namespace Sys2Proof

/-- A register, a memory cell, an instruction or an address: 16 bits (R7, R9). -/
abbrev Word := BitVec 16

/-- A console character, or one half of a word: 8 bits (R7, R60). -/
abbrev Byte := BitVec 8

/-- The index of a general register, 0 for R0 to 7 for R7 (R20). -/
abbrev Reg := Fin 8

end Sys2Proof
end

