-- ==== Sys2Proof/Syntax.lean ====
section
/-!
DEFINITION. The instructions, one constructor per row of `spec/opcode_table.json` (R72, R84). The
fields are those of R73 and R74: register indices, test bits, immediates and offsets as the encoding
holds them (not yet extended). Unused bits are no field (R77), with one exception: the illegal
instructions keep every bit the opcode does not fix, because their fault carries the whole
instruction word (R147 to R149, R161).
-/

namespace Sys2Proof

inductive Instr where
  /-- BR: test bits n, z, p and a 9-bit offset (R110). -/
  | br (n z p : Bool) (off9 : BitVec 9)
  /-- ADD, register form (R100). -/
  | addReg (dr sr1 sr2 : Reg)
  /-- ADD, immediate form (R101). -/
  | addImm (dr sr1 : Reg) (imm5 : BitVec 5)
  /-- LD (R122). -/
  | ld (dr : Reg) (off9 : BitVec 9)
  /-- ST (R126). -/
  | st (sr : Reg) (off9 : BitVec 9)
  /-- JSRR (R113). -/
  | jsrr (baseR : Reg)
  /-- JSR (R112). -/
  | jsr (off11 : BitVec 11)
  /-- AND, register form (R102). -/
  | andReg (dr sr1 sr2 : Reg)
  /-- AND, immediate form (R103). -/
  | andImm (dr sr1 : Reg) (imm5 : BitVec 5)
  /-- LDR (R124). -/
  | ldr (dr baseR : Reg) (off6 : BitVec 6)
  /-- STR (R128). -/
  | str (sr baseR : Reg) (off6 : BitVec 6)
  /-- RTI with its ignored bits 11 to 0, kept for the fault's payload (R148). -/
  | rti (low12 : BitVec 12)
  /-- NOT (R104). -/
  | notReg (dr sr : Reg)
  /-- LDI (R123). -/
  | ldi (dr : Reg) (off9 : BitVec 9)
  /-- STI (R127). -/
  | sti (sr : Reg) (off9 : BitVec 9)
  /-- JMP; RET is JMP R7 (R111, R83). -/
  | jmp (baseR : Reg)
  /-- RES with its ignored bits 11 to 0, kept for the fault's payload (R149). -/
  | res (low12 : BitVec 12)
  /-- LEA (R125). -/
  | lea (dr : Reg) (off9 : BitVec 9)
  /-- TRAP x20 (R141). -/
  | trapGetc
  /-- TRAP x21 (R142). -/
  | trapOut
  /-- TRAP x22 (R143). -/
  | trapPuts
  /-- TRAP x23 (R144). -/
  | trapIn
  /-- TRAP x24 (R145). -/
  | trapPutsp
  /-- TRAP x25 (R146). -/
  | trapHalt
  /-- TRAP with a vector in 0x00 to 0x1F; `hi4` is the ignored `ir[11:8]` (R147). -/
  | trapVec00To1F (hi4 : BitVec 4) (vec : Byte)
  /-- TRAP with a vector in 0x26 to 0x27 (R147). -/
  | trapVec26To27 (hi4 : BitVec 4) (vec : Byte)
  /-- TRAP with a vector in 0x28 to 0x2F (R147). -/
  | trapVec28To2F (hi4 : BitVec 4) (vec : Byte)
  /-- TRAP with a vector in 0x30 to 0x3F (R147). -/
  | trapVec30To3F (hi4 : BitVec 4) (vec : Byte)
  /-- TRAP with a vector in 0x40 to 0x7F (R147). -/
  | trapVec40To7F (hi4 : BitVec 4) (vec : Byte)
  /-- TRAP with a vector in 0x80 to 0xFF (R147). -/
  | trapVec80ToFF (hi4 : BitVec 4) (vec : Byte)
  deriving DecidableEq, Repr

end Sys2Proof
end

