-- ==== Sys2Proof/WellFormed.lean ====
section
/-!
DEFINITION. The well-formed instructions: those some instruction word stands for. Every field of
the legal instructions has exactly the width its encoding gives it, so those terms are well formed
as they stand; the six rows of unrecognised trap vectors each admit the vectors of their own range
only (R79, R84, `spec/opcode_table.json`).
-/

namespace Sys2Proof

/-- The vector lies in the range `lo` to `hi`, both included. -/
def vecIn (lo hi : Nat) (vec : Byte) : Bool := decide (lo ≤ vec.toNat ∧ vec.toNat ≤ hi)

/-- Some instruction word decodes to this instruction (R84). -/
def Instr.wellFormed : Instr → Bool
  | .br _ _ _ _ => true
  | .addReg _ _ _ => true
  | .addImm _ _ _ => true
  | .ld _ _ => true
  | .st _ _ => true
  | .jsrr _ => true
  | .jsr _ => true
  | .andReg _ _ _ => true
  | .andImm _ _ _ => true
  | .ldr _ _ _ => true
  | .str _ _ _ => true
  | .rti _ => true
  | .notReg _ _ => true
  | .ldi _ _ => true
  | .sti _ _ => true
  | .jmp _ => true
  | .res _ => true
  | .lea _ _ => true
  | .trapGetc => true
  | .trapOut => true
  | .trapPuts => true
  | .trapIn => true
  | .trapPutsp => true
  | .trapHalt => true
  | .trapVec00To1F _ vec => vecIn 0x00 0x1F vec
  | .trapVec26To27 _ vec => vecIn 0x26 0x27 vec
  | .trapVec28To2F _ vec => vecIn 0x28 0x2F vec
  | .trapVec30To3F _ vec => vecIn 0x30 0x3F vec
  | .trapVec40To7F _ vec => vecIn 0x40 0x7F vec
  | .trapVec80ToFF _ vec => vecIn 0x80 0xFF vec

end Sys2Proof
end

