-- ==== Sys2Proof/Decode.lean ====
section
/-!
DEFINITION. The decoder, total on the 65536 words (R84), and after it the encoder and the match and
mask of each row of the opcode table. Opcode numbers, field positions and mode bits are those of
R72, R74 and R76 (the spec's decisions D1, D2, D3; log 3, log 4); unused bits are not looked at
(R77, D4; log 5). No word is rejected: the illegal opcodes and vectors are instructions whose
execution faults (R78, R79, R92).
-/

namespace Sys2Proof

/-- The `len` bits of `w` from bit `lo` up: `w[lo+len-1 : lo]` (R9). -/
def slice (w : Word) (lo len : Nat) : BitVec len := w.extractLsb' lo len

/-- One bit of a word: `w[k]` (R9). -/
def bitAt (w : Word) (k : Nat) : Bool := w.getLsbD k

/-- A 3-bit register index whose lowest bit is bit `lo` (R74). -/
def regAt (w : Word) (lo : Nat) : Reg := (slice w lo 3).toFin

/-- `ir[15:12]` (R71). -/
def opcodeOf (w : Word) : BitVec 4 := slice w 12 4

/-- Opcode 1111: the six routines and the six ranges of unrecognised vectors (R79, R84, R140). -/
def decodeTrap (hi4 : BitVec 4) (vec : Byte) : Instr :=
  if vec = 0x20#8 then .trapGetc
  else if vec = 0x21#8 then .trapOut
  else if vec = 0x22#8 then .trapPuts
  else if vec = 0x23#8 then .trapIn
  else if vec = 0x24#8 then .trapPutsp
  else if vec = 0x25#8 then .trapHalt
  else if vec.toNat ≤ 0x1F then .trapVec00To1F hi4 vec
  else if vec.toNat ≤ 0x27 then .trapVec26To27 hi4 vec
  else if vec.toNat ≤ 0x2F then .trapVec28To2F hi4 vec
  else if vec.toNat ≤ 0x3F then .trapVec30To3F hi4 vec
  else if vec.toNat ≤ 0x7F then .trapVec40To7F hi4 vec
  else .trapVec80ToFF hi4 vec

/-- The instruction a word stands for, by its opcode (R72 to R76, R84). -/
def decode (w : Word) : Instr :=
  match (opcodeOf w).toNat with
  | 0 => .br (bitAt w 11) (bitAt w 10) (bitAt w 9) (slice w 0 9)
  | 1 => if bitAt w 5 then .addImm (regAt w 9) (regAt w 6) (slice w 0 5)
         else .addReg (regAt w 9) (regAt w 6) (regAt w 0)
  | 2 => .ld (regAt w 9) (slice w 0 9)
  | 3 => .st (regAt w 9) (slice w 0 9)
  | 4 => if bitAt w 11 then .jsr (slice w 0 11) else .jsrr (regAt w 6)
  | 5 => if bitAt w 5 then .andImm (regAt w 9) (regAt w 6) (slice w 0 5)
         else .andReg (regAt w 9) (regAt w 6) (regAt w 0)
  | 6 => .ldr (regAt w 9) (regAt w 6) (slice w 0 6)
  | 7 => .str (regAt w 9) (regAt w 6) (slice w 0 6)
  | 8 => .rti (slice w 0 12)
  | 9 => .notReg (regAt w 9) (regAt w 6)
  | 10 => .ldi (regAt w 9) (slice w 0 9)
  | 11 => .sti (regAt w 9) (slice w 0 9)
  | 12 => .jmp (regAt w 6)
  | 13 => .res (slice w 0 12)
  | 14 => .lea (regAt w 9) (slice w 0 9)
  -- 15, the one opcode left
  | _ => decodeTrap (slice w 8 4) (slice w 0 8)

/-- `v` in a word with its lowest bit at bit `lo`, zeros elsewhere (R74). -/
def field {k : Nat} (v : BitVec k) (lo : Nat) : Word := v.setWidth 16 <<< lo

/-- A register index in a word with its lowest bit at bit `lo` (R74). -/
def regField (r : Reg) (lo : Nat) : Word := field (BitVec.ofFin (w := 3) r) lo

/-- One bit in a word at bit `lo` (R74). -/
def bitField (b : Bool) (lo : Nat) : Word := field (BitVec.ofBool b) lo

/-- The word of an instruction (R73, R74). Unused bits are those an assembler emits: 0, and 111111
in bits 5 to 0 of NOT (R77; log 5). -/
def encode : Instr → Word
  | .br n z p off9 => field 0x0#4 12 ||| bitField n 11 ||| bitField z 10 ||| bitField p 9 ||| field off9 0
  | .addReg dr sr1 sr2 => field 0x1#4 12 ||| regField dr 9 ||| regField sr1 6 ||| bitField false 5 ||| regField sr2 0
  | .addImm dr sr1 imm5 => field 0x1#4 12 ||| regField dr 9 ||| regField sr1 6 ||| bitField true 5 ||| field imm5 0
  | .ld dr off9 => field 0x2#4 12 ||| regField dr 9 ||| field off9 0
  | .st sr off9 => field 0x3#4 12 ||| regField sr 9 ||| field off9 0
  | .jsrr baseR => field 0x4#4 12 ||| bitField false 11 ||| regField baseR 6
  | .jsr off11 => field 0x4#4 12 ||| bitField true 11 ||| field off11 0
  | .andReg dr sr1 sr2 => field 0x5#4 12 ||| regField dr 9 ||| regField sr1 6 ||| bitField false 5 ||| regField sr2 0
  | .andImm dr sr1 imm5 => field 0x5#4 12 ||| regField dr 9 ||| regField sr1 6 ||| bitField true 5 ||| field imm5 0
  | .ldr dr baseR off6 => field 0x6#4 12 ||| regField dr 9 ||| regField baseR 6 ||| field off6 0
  | .str sr baseR off6 => field 0x7#4 12 ||| regField sr 9 ||| regField baseR 6 ||| field off6 0
  | .rti low12 => field 0x8#4 12 ||| field low12 0
  | .notReg dr sr => field 0x9#4 12 ||| regField dr 9 ||| regField sr 6 ||| field 0b111111#6 0
  | .ldi dr off9 => field 0xA#4 12 ||| regField dr 9 ||| field off9 0
  | .sti sr off9 => field 0xB#4 12 ||| regField sr 9 ||| field off9 0
  | .jmp baseR => field 0xC#4 12 ||| regField baseR 6
  | .res low12 => field 0xD#4 12 ||| field low12 0
  | .lea dr off9 => field 0xE#4 12 ||| regField dr 9 ||| field off9 0
  | .trapGetc => field 0xF#4 12 ||| field 0x20#8 0
  | .trapOut => field 0xF#4 12 ||| field 0x21#8 0
  | .trapPuts => field 0xF#4 12 ||| field 0x22#8 0
  | .trapIn => field 0xF#4 12 ||| field 0x23#8 0
  | .trapPutsp => field 0xF#4 12 ||| field 0x24#8 0
  | .trapHalt => field 0xF#4 12 ||| field 0x25#8 0
  | .trapVec00To1F hi4 vec => field 0xF#4 12 ||| field hi4 8 ||| field vec 0
  | .trapVec26To27 hi4 vec => field 0xF#4 12 ||| field hi4 8 ||| field vec 0
  | .trapVec28To2F hi4 vec => field 0xF#4 12 ||| field hi4 8 ||| field vec 0
  | .trapVec30To3F hi4 vec => field 0xF#4 12 ||| field hi4 8 ||| field vec 0
  | .trapVec40To7F hi4 vec => field 0xF#4 12 ||| field hi4 8 ||| field vec 0
  | .trapVec80ToFF hi4 vec => field 0xF#4 12 ||| field hi4 8 ||| field vec 0

/-- An instruction's row of the opcode table: a word `w` stands for an instruction of the row when
`w &&& mask = value` (R84, `spec/opcode_table.json`). -/
structure Row where
  mask  : Word
  value : Word
  deriving DecidableEq, Repr

/-- The mask and match of each row of `spec/opcode_table.json` (R84). -/
def Instr.row : Instr → Row
  | .br _ _ _ _ => ⟨0xF000#16, 0x0000#16⟩
  | .addReg _ _ _ => ⟨0xF020#16, 0x1000#16⟩
  | .addImm _ _ _ => ⟨0xF020#16, 0x1020#16⟩
  | .ld _ _ => ⟨0xF000#16, 0x2000#16⟩
  | .st _ _ => ⟨0xF000#16, 0x3000#16⟩
  | .jsrr _ => ⟨0xF800#16, 0x4000#16⟩
  | .jsr _ => ⟨0xF800#16, 0x4800#16⟩
  | .andReg _ _ _ => ⟨0xF020#16, 0x5000#16⟩
  | .andImm _ _ _ => ⟨0xF020#16, 0x5020#16⟩
  | .ldr _ _ _ => ⟨0xF000#16, 0x6000#16⟩
  | .str _ _ _ => ⟨0xF000#16, 0x7000#16⟩
  | .rti _ => ⟨0xF000#16, 0x8000#16⟩
  | .notReg _ _ => ⟨0xF000#16, 0x9000#16⟩
  | .ldi _ _ => ⟨0xF000#16, 0xA000#16⟩
  | .sti _ _ => ⟨0xF000#16, 0xB000#16⟩
  | .jmp _ => ⟨0xF000#16, 0xC000#16⟩
  | .res _ => ⟨0xF000#16, 0xD000#16⟩
  | .lea _ _ => ⟨0xF000#16, 0xE000#16⟩
  | .trapGetc => ⟨0xF0FF#16, 0xF020#16⟩
  | .trapOut => ⟨0xF0FF#16, 0xF021#16⟩
  | .trapPuts => ⟨0xF0FF#16, 0xF022#16⟩
  | .trapIn => ⟨0xF0FF#16, 0xF023#16⟩
  | .trapPutsp => ⟨0xF0FF#16, 0xF024#16⟩
  | .trapHalt => ⟨0xF0FF#16, 0xF025#16⟩
  | .trapVec00To1F _ _ => ⟨0xF0E0#16, 0xF000#16⟩
  | .trapVec26To27 _ _ => ⟨0xF0FE#16, 0xF026#16⟩
  | .trapVec28To2F _ _ => ⟨0xF0F8#16, 0xF028#16⟩
  | .trapVec30To3F _ _ => ⟨0xF0F0#16, 0xF030#16⟩
  | .trapVec40To7F _ _ => ⟨0xF0C0#16, 0xF040#16⟩
  | .trapVec80ToFF _ _ => ⟨0xF080#16, 0xF080#16⟩

/-- The bits of an instruction's word that the decoder ignores (R77); the illegal instructions have
none here, since their fault reports every bit (R161). -/
def Instr.unusedBits : Instr → Word
  | .br _ _ _ _ => 0x0000#16
  | .addReg _ _ _ => 0x0018#16
  | .addImm _ _ _ => 0x0000#16
  | .ld _ _ => 0x0000#16
  | .st _ _ => 0x0000#16
  | .jsrr _ => 0x063F#16
  | .jsr _ => 0x0000#16
  | .andReg _ _ _ => 0x0018#16
  | .andImm _ _ _ => 0x0000#16
  | .ldr _ _ _ => 0x0000#16
  | .str _ _ _ => 0x0000#16
  | .rti _ => 0x0000#16
  | .notReg _ _ => 0x003F#16
  | .ldi _ _ => 0x0000#16
  | .sti _ _ => 0x0000#16
  | .jmp _ => 0x0E3F#16
  | .res _ => 0x0000#16
  | .lea _ _ => 0x0000#16
  | .trapGetc => 0x0F00#16
  | .trapOut => 0x0F00#16
  | .trapPuts => 0x0F00#16
  | .trapIn => 0x0F00#16
  | .trapPutsp => 0x0F00#16
  | .trapHalt => 0x0F00#16
  | .trapVec00To1F _ _ => 0x0000#16
  | .trapVec26To27 _ _ => 0x0000#16
  | .trapVec28To2F _ _ => 0x0000#16
  | .trapVec30To3F _ _ => 0x0000#16
  | .trapVec40To7F _ _ => 0x0000#16
  | .trapVec80ToFF _ _ => 0x0000#16

/-- The instruction the decoder reads from a table row's word: `nbits` bits, bit 0 the least
significant, every bit above them 0. An instruction is one word (R70), so more than 16 bits is none. -/
def decodeTableWord (nbits w : Nat) : Option Instr :=
  if nbits ≤ 16 then some (decode (BitVec.ofNat 16 (w % 2 ^ nbits))) else none

end Sys2Proof
end

