-- ==== Sys2Proof/Config.lean ====
section
/-!
DEFINITION. What the spec leaves to the implementation or the environment. The three constants have
no body: nothing can be proved of their values, so a claim that mentions them holds for every value.
-/

namespace Sys2Proof.Config

/-- `IN_PROMPT`: the bytes trap IN writes before it reads (R8, R144; OPEN in the spec, D12, log 14). -/
opaque inPrompt : List Byte

/-- `HALT_NOTICE`: the bytes trap HALT writes (R8, R146; OPEN in the spec, D13, log 15). -/
opaque haltNotice : List Byte

/-- The free answer to the `k`-th question "has the next character arrived yet?" (R61: "lets 'is the
next one pending yet' be answered freely at each poll"; D11, log 10). -/
opaque arrived : Nat → Bool

/-- `PC_START`: the program counter after reset (R7, R191). -/
def pcStart : Word := 0x3000#16

end Sys2Proof.Config
end

