-- ==== Sys2Proof/Machine/State.lean ====
section
/-!
DEFINITION. The state of the block (R37: the record `x, pc, cond, run, M, out` and the console input)
as plain data, its reset, and the reasons a step may stop.
-/

namespace Sys2Proof.Machine

/-- The condition-flag register: exactly one of Negative, Zero, Positive (R26, D5, log 6). -/
inductive Cond where
  | n
  | z
  | p
  deriving DecidableEq, Repr

/-- Why the engine faulted, with the instruction word (R160, R161, D16, log 18). -/
inductive FaultReason where
  /-- RTI or RES was executed (R148, R149). -/
  | illegalOpcode (ir : Word)
  /-- TRAP was executed with an unrecognised vector (R147). -/
  | illegalTrapVector (ir : Word)
  deriving DecidableEq, Repr

/-- The run state (R30). -/
inductive Run where
  | running
  | halted
  | faulted (reason : FaultReason)
  deriving DecidableEq, Repr

/-- Which instruction's step has begun and not completed (R94: "the only places a step can wait").
The model's own field (log 12, log 13). -/
inductive Hold where
  /-- No step is under way: the engine is between two instructions. -/
  | idle
  /-- GETC waits for a character (R141, R151). -/
  | getc
  /-- IN has written its prompt and waits for a character (R144, R151). -/
  | inp
  /-- PUTS has found no zero word yet and reads `next` next (R143, R203). -/
  | puts (next : Word)
  /-- PUTSP has found no zero byte yet and reads `next` next (R145). -/
  | putsp (next : Word)
  deriving DecidableEq, Repr

/-- The console's side of the block (R35, R60, R61; log 10). Characters are delivered in the order
`pending ++ incoming`. -/
structure Console where
  /-- Characters received and not yet consumed, oldest first: a poll finds them. -/
  pending : List Byte
  /-- Characters that will arrive, in order; when is the free answer of `Config.arrived`. -/
  incoming : List Byte
  /-- How many free answers have been drawn so far. The model's own counter. -/
  draws : Nat
  deriving DecidableEq, Repr

/-- The 65536 cells of 16 bits (R33, R40), held as byte cells: the low half of the word at address
`a` under key `2 * a`, its high half under `2 * a + 1` (log 1). A half that is not listed is 0x00, as
reset leaves it (R34). The block itself has no bytes and no byte order (R48); only
`Memory.read` and `Memory.write` look at the keys. -/
abbrev Memory := List Host.Cell

/-- The canonical form: keys strictly rising and inside the address space, no listed 0x00. -/
abbrev Memory.wf (m : Memory) : Prop :=
  m.Pairwise (fun c d => c.1 < d.1) ∧ ∀ c ∈ m, c.1 < 131072 ∧ c.2 ≠ 0x00#8

/-- Everything the spec gives the machine (R37), with the model's own `hold` and the console. -/
structure State where
  /-- R0 to R7 (R20). -/
  regs : Vector Word 8
  /-- The program counter (R23). -/
  pc : Word
  /-- The condition flag (R26). -/
  cond : Cond
  /-- The run state (R30). -/
  run : Run
  /-- Memory (R33). -/
  mem : Memory
  /-- The console output trace, oldest byte first (R35, R60). -/
  out : List Byte
  /-- The console's input (R35, R61). -/
  console : Console
  /-- The step under way, if any (R94, R151). -/
  hold : Hold
  deriving DecidableEq, Repr

/-- The state right after reset (R34, R190). R0 to R7 and `out` follow the spec's decisions D6 and
D11 (log 2, log 20); the console supplies nothing until it is given something (log 20). -/
def State.reset : State where
  regs := Vector.replicate 8 0x0000#16
  pc := Config.pcStart
  cond := .z
  run := .running
  mem := []
  out := []
  console := { pending := [], incoming := [], draws := 0 }
  hold := .idle

/-- The reasons a step could stop the machine without a next state: there is none. The two faults of
the hardware (R160) are next states whose `run` is `Faulted` (R163), nobody raises anything here,
and nothing the spec gives an effect stops (log 22). -/
inductive Fault where
  deriving DecidableEq, Repr

/-- The reasons the model could refuse an instruction. -/
inductive Refusal where
  /-- The instruction has no meaning yet. Raised only by an arm of `exec` that names it; no arm does.
  Safe: the machine goes on where the model stops. -/
  | notModelled (mnemonic : String)
  deriving DecidableEq, Repr

end Sys2Proof.Machine
end

