-- ==== Sys2Proof/Machine/Ops.lean ====
section
/-!
DEFINITION. The named operations every meaning is built from: registers, memory, the console, the one
read path with its keyboard intercept, and taking a fault.
-/

namespace Sys2Proof.Machine

/-! ### Halves of a word -/

/-- `v[7:0]` (R9). -/
def lowByte (v : Word) : Byte := v.extractLsb' 0 8

/-- `v[15:8]` (R9). -/
def highByte (v : Word) : Byte := v.extractLsb' 8 8

/-- `zext_8(b)`: 0x00 in the high byte, `b` in the low byte (R11). -/
def zext8 (b : Byte) : Word := b.setWidth 16

/-! ### General registers (R20, R21) -/

/-- `x[i]`. -/
def State.reg (s : State) (i : Reg) : Word := s.regs.get i

/-- `x[i] <- v`. No register is hardwired. -/
def State.setReg (s : State) (i : Reg) (v : Word) : State := { s with regs := s.regs.set i v }

/-! ### Memory (R33, R40 to R45) -/

/-- The byte under a key; an unlisted one is 0x00 (R34). -/
def Memory.getByte : Memory → Nat → Byte
  | [], _ => 0x00#8
  | (k, b) :: m, key => if k < key then Memory.getByte m key else if k = key then b else 0x00#8

/-- Sets the byte under a key, keeping the canonical form: setting 0x00 removes the entry. (The
`dropWhile` removes nothing from a memory in canonical form; it makes read-after-write hold of every
list.) -/
def Memory.setByte : Memory → Nat → Byte → Memory
  | [], key, v => if v = 0x00#8 then [] else [(key, v)]
  | (k, b) :: m, key, v =>
    if k < key then (k, b) :: Memory.setByte m key v
    else if k = key then
      if v = 0x00#8 then m.dropWhile (fun c => c.1 ≤ key) else (key, v) :: m
    else if v = 0x00#8 then (k, b) :: m
    else (key, v) :: (k, b) :: m

/-- `M[a]`, the stored content of a cell (R12). -/
def Memory.read (m : Memory) (a : Word) : Word :=
  m.getByte (2 * a.toNat + 1) ++ m.getByte (2 * a.toNat)

/-- `M[a] <- v` (R12, R45). -/
def Memory.write (m : Memory) (a v : Word) : Memory :=
  (m.setByte (2 * a.toNat) (lowByte v)).setByte (2 * a.toNat + 1) (highByte v)

/-! ### The console (R60, R61; log 10) -/

/-- `ConsolePoll()`: is a character pending? It consumes nothing. Whether the next character has
arrived by now is a free answer; once arrived it is pending until it is consumed. -/
def Console.poll (c : Console) : Bool × Console :=
  match c.pending, c.incoming with
  | _ :: _, _ => (true, c)
  | [], [] => (false, c)
  | [], b :: rest =>
    if Config.arrived c.draws then
      (true, { pending := [b], incoming := rest, draws := c.draws + 1 })
    else (false, { c with draws := c.draws + 1 })

/-- `ConsoleRead()`: the next character, consumed; `none` when none is pending and none will arrive,
so that the read waits. A character that is still to arrive ends the wait when it does. -/
def Console.read (c : Console) : Option (Byte × Console) :=
  match c.pending, c.incoming with
  | b :: rest, _ => some (b, { c with pending := rest })
  | [], b :: rest => some (b, { c with incoming := rest })
  | [], [] => none

/-- `ConsoleWrite(b)`: appends to the output trace; never blocks, never fails. -/
def State.consoleWrite (s : State) (b : Byte) : State := { s with out := s.out ++ [b] }

/-- `for each byte b of bs, in order: ConsoleWrite(b)`. -/
def State.consoleWriteAll (s : State) (bs : List Byte) : State := { s with out := s.out ++ bs }

/-! ### The memory interface (R42 to R47) -/

/-- `KBSR`, the keyboard status register's address (R7, R52). -/
def kbsr : Word := 0xFE00#16

/-- `KBDR`, the keyboard data register's address (R7, R52). -/
def kbdr : Word := 0xFE02#16

/-- `ReadKBSR()` (R43): when a character is pending, consume it, stage it at 0xFE02 and answer 0x8000;
otherwise answer 0x0000 (D9, D10; log 7, log 8). -/
def State.readKbsr (s : State) : Word × State :=
  match s.console.poll with
  | (false, c) => (0x0000#16, { s with console := c })
  | (true, c) =>
    match c.read with
    | some (b, c') => (0x8000#16, { s with console := c', mem := s.mem.write kbdr (zext8 b) })
    | none => (0x0000#16, { s with console := c })

/-- `MemRead(a, 1)`: the engine's only read path (R42, R47, D8; log 9). -/
def State.memRead (s : State) (a : Word) : Word × State :=
  if a = kbsr then s.readKbsr else (s.mem.read a, s)

/-- `MemWrite(a, 1, v)`: an unconditional store at every address (R45, R46). -/
def State.memWrite (s : State) (a v : Word) : State := { s with mem := s.mem.write a v }

/-! ### Taking a fault (R163) -/

/-- `raise E(ir)`: `run <- Faulted(E(ir))` and nothing else. There is no handler, nothing is saved,
`pc` keeps the value the fetch gave it, and nothing returns from it (R163, R164, R171; log 18). -/
def State.raise (s : State) (reason : FaultReason) : State := { s with run := .faulted reason }

end Sys2Proof.Machine
end

