-- ==== Sys2Proof/Machine/Flags.lean ====
section
/-!
DEFINITION. The condition flag: its one computation `SetCC` and its one test (R26 to R29, R110).
-/

namespace Sys2Proof.Machine

/-- The flag of a result: Z for 0x0000, N when bit 15 is set, else P (R27). -/
def ccOf (v : Word) : Cond :=
  if v = 0x0000#16 then .z else if v.msb then .n else .p

/-- `SetCC(v)` (R27). -/
def State.setCC (s : State) (v : Word) : State := { s with cond := ccOf v }

/-- BR's test: some requested bit matches the flag that is set (R110). -/
def branchTaken (n z p : Bool) : Cond → Bool
  | .n => n
  | .z => z
  | .p => p

end Sys2Proof.Machine
end

