-- ==== Sys2Proof/Machine/Operands.lean ====
section
/-!
DEFINITION. The operand forms: sign-extended immediates and offsets, the two effective addresses, and
the write of a flag-setting result.
-/

namespace Sys2Proof.Machine

/-- `sext_k(f)`: a field widened to 16 bits by replicating its sign bit (R11, R75). -/
def sext {k : Nat} (f : BitVec k) : Word := f.signExtend 16

/-- `pc + sext(off)`, the PC-relative address or target; `pc` is already incremented (R93, R110,
R112, R120). -/
def State.pcRel {k : Nat} (s : State) (off : BitVec k) : Word := s.pc + sext off

/-- `EA6 = x[BaseR] + sext_6(off6)` (R121). -/
def State.baseOff (s : State) (baseR : Reg) (off6 : BitVec 6) : Word := s.reg baseR + sext off6

/-- `x[DR] <- v; SetCC(v)`: how every flag-setting instruction ends (R28). -/
def State.setResult (s : State) (dr : Reg) (v : Word) : State := (s.setReg dr v).setCC v

/-- `x[7] <- pc`: the link of JSR and JSRR, the address of the next word (R22, R112, R113). -/
def State.link (s : State) : State := s.setReg 7 s.pc

/-- `pc <- v`. -/
def State.jumpTo (s : State) (v : Word) : State := { s with pc := v }

end Sys2Proof.Machine
end

