-- ==== Sys2Proof/Machine/Trap.lean ====
section
/-!
DEFINITION. TRAP's six routines, its unrecognised vectors, and the illegal opcodes
(`44_trap_and_illegal.md`). A routine is built in: it reads no vector table, does not change `pc`,
the flag or R7 (R140, R150, R168, D7; log 11).
-/

namespace Sys2Proof.Machine

/-- How many words of a string one model step reads at most: one lap of the whole memory (log 13). -/
def lap : Nat := 65536

/-- The read that GETC ends in: the next character into R0, or wait (R141, R151). -/
def State.getcRead (s : State) : State :=
  match s.console.read with
  | some (b, c) => { s with console := c, hold := .idle }.setReg 0 (zext8 b)
  | none => { s with hold := .getc }

/-- What IN does after its prompt: read, echo, store, or wait (R144, R151, D12; log 14). -/
def State.inRead (s : State) : State :=
  match s.console.read with
  | some (b, c) => ({ s with console := c, hold := .idle }.consoleWrite b).setReg 0 (zext8 b)
  | none => { s with hold := .inp }

/-- The loop of PUTS from address `a`, for at most `n` words (R143, D14; log 13, log 16). -/
def putsLoop : Nat → Word → State → State
  | 0, a, s => { s with hold := .puts a }
  | n + 1, a, s =>
    let r := s.memRead a
    if r.1 = 0x0000#16 then { r.2 with hold := .idle }
    else putsLoop n (a + 1#16) (r.2.consoleWrite (lowByte r.1))

/-- The loop of PUTSP from address `a`, for at most `n` words: the first zero byte, low before high,
ends it (R145, D14, D15; log 13, log 16, log 17). -/
def putspLoop : Nat → Word → State → State
  | 0, a, s => { s with hold := .putsp a }
  | n + 1, a, s =>
    let r := s.memRead a
    if lowByte r.1 = 0x00#8 then { r.2 with hold := .idle }
    else
      let t := r.2.consoleWrite (lowByte r.1)
      if highByte r.1 = 0x00#8 then { t with hold := .idle }
      else putspLoop n (a + 1#16) (t.consoleWrite (highByte r.1))

/-- TRAP x20, GETC (R141). -/
def execGetc (s : State) : Host.Outcome State Fault Refusal := .next s.getcRead

/-- TRAP x21, OUT (R142). -/
def execOut (s : State) : Host.Outcome State Fault Refusal :=
  .next (s.consoleWrite (lowByte (s.reg 0)))

/-- TRAP x22, PUTS (R143). -/
def execPuts (s : State) : Host.Outcome State Fault Refusal := .next (putsLoop lap (s.reg 0) s)

/-- TRAP x23, IN: the prompt is written before the wait (R144). -/
def execIn (s : State) : Host.Outcome State Fault Refusal :=
  .next (s.consoleWriteAll Config.inPrompt).inRead

/-- TRAP x24, PUTSP (R145). -/
def execPutsp (s : State) : Host.Outcome State Fault Refusal := .next (putspLoop lap (s.reg 0) s)

/-- TRAP x25, HALT: the notice, then `run <- Halted` (R146, D13; log 15). -/
def execHalt (s : State) : Host.Outcome State Fault Refusal :=
  .next { s.consoleWriteAll Config.haltNotice with run := .halted }

/-- TRAP with a vector in 0x00 to 0x1F (R147). -/
def execVec00To1F (hi4 : BitVec 4) (vec : Byte) (s : State) : Host.Outcome State Fault Refusal :=
  .next (s.raise (.illegalTrapVector (encode (.trapVec00To1F hi4 vec))))

/-- TRAP with a vector in 0x26 to 0x27 (R147). -/
def execVec26To27 (hi4 : BitVec 4) (vec : Byte) (s : State) : Host.Outcome State Fault Refusal :=
  .next (s.raise (.illegalTrapVector (encode (.trapVec26To27 hi4 vec))))

/-- TRAP with a vector in 0x28 to 0x2F (R147). -/
def execVec28To2F (hi4 : BitVec 4) (vec : Byte) (s : State) : Host.Outcome State Fault Refusal :=
  .next (s.raise (.illegalTrapVector (encode (.trapVec28To2F hi4 vec))))

/-- TRAP with a vector in 0x30 to 0x3F (R147). -/
def execVec30To3F (hi4 : BitVec 4) (vec : Byte) (s : State) : Host.Outcome State Fault Refusal :=
  .next (s.raise (.illegalTrapVector (encode (.trapVec30To3F hi4 vec))))

/-- TRAP with a vector in 0x40 to 0x7F (R147). -/
def execVec40To7F (hi4 : BitVec 4) (vec : Byte) (s : State) : Host.Outcome State Fault Refusal :=
  .next (s.raise (.illegalTrapVector (encode (.trapVec40To7F hi4 vec))))

/-- TRAP with a vector in 0x80 to 0xFF (R147). -/
def execVec80ToFF (hi4 : BitVec 4) (vec : Byte) (s : State) : Host.Outcome State Fault Refusal :=
  .next (s.raise (.illegalTrapVector (encode (.trapVec80ToFF hi4 vec))))

/-- RTI: illegal here; nothing is popped, restored or returned to (R148). -/
def execRti (low12 : BitVec 12) (s : State) : Host.Outcome State Fault Refusal :=
  .next (s.raise (.illegalOpcode (encode (.rti low12))))

/-- RES, the reserved opcode (R149). -/
def execRes (low12 : BitVec 12) (s : State) : Host.Outcome State Fault Refusal :=
  .next (s.raise (.illegalOpcode (encode (.res low12))))

end Sys2Proof.Machine
end

