-- ==== Sys2Proof/Machine/Cycle.lean ====
section
/-!
DEFINITION. The parts of a step that `step` calls: the fetch with its increment, going on with a step
that has not completed, and placing an instruction word where the next fetch finds it.
-/

namespace Sys2Proof.Machine

/-- `ir <- MemRead(pc, 1); pc <- pc + 1`: the read uses `pc` before the increment and goes through the
one read path; the increment wraps (R91, R47). -/
def State.fetch (s : State) : Word × State :=
  let r := s.memRead s.pc
  (r.1, { r.2 with pc := s.pc + 1#16 })

/-- Goes on with a GETC, IN, PUTS or PUTSP whose step has begun and not completed (R94, R151, R203;
log 12, log 13). With no step under way there is nothing to go on with. -/
def State.resume (s : State) : State :=
  match s.hold with
  | .idle => s
  | .getc => s.getcRead
  | .inp => s.inRead
  | .puts a => putsLoop lap a s
  | .putsp a => putspLoop lap a s

/-- The address the next fetch reads a placed word at: `pc`, except that no word can be placed at
0xFE00, whose reads are intercepted (R43); there it is the reset value of `pc` (log 25). -/
def State.placeAddr (s : State) : Word := if s.pc = kbsr then Config.pcStart else s.pc

/-- `s`, about to fetch `ir` at the start of a step (log 25). -/
def State.place (s : State) (ir : Word) : State :=
  { s with mem := s.mem.write s.placeAddr ir, pc := s.placeAddr, run := .running, hold := .idle }

end Sys2Proof.Machine
end

