-- ==== Sys2Proof/Machine/Control.lean ====
section
/-!
DEFINITION. BR, JMP, JSR, JSRR (`42_control.md`). `pc` is the address of the next word when they run
(R93). None writes the flag or memory, none has a delay slot (R114).
-/

namespace Sys2Proof.Machine

/-- BR (R110). -/
def execBr (n z p : Bool) (off9 : BitVec 9) (s : State) : Host.Outcome State Fault Refusal :=
  .next (if branchTaken n z p s.cond then s.jumpTo (s.pcRel off9) else s)

/-- JMP, and RET as JMP R7 (R111). -/
def execJmp (baseR : Reg) (s : State) : Host.Outcome State Fault Refusal :=
  .next (s.jumpTo (s.reg baseR))

/-- JSR (R112). -/
def execJsr (off11 : BitVec 11) (s : State) : Host.Outcome State Fault Refusal :=
  .next (s.link.jumpTo (s.pcRel off11))

/-- JSRR: the link is written first, so that JSRR R7 reads the new R7 (R113, D24; log 23). -/
def execJsrr (baseR : Reg) (s : State) : Host.Outcome State Fault Refusal :=
  .next (s.link.jumpTo (s.link.reg baseR))

end Sys2Proof.Machine
end

