-- ==== Sys2Proof/Machine/LoadStore.lean ====
section
/-!
DEFINITION. LD, LDI, LDR, LEA, ST, STI, STR (`43_load_store.md`). Every read is a `memRead` and so
subject to the keyboard intercept (R47); no load or store can fault.
-/

namespace Sys2Proof.Machine

/-- LD (R122). -/
def execLd (dr : Reg) (off9 : BitVec 9) (s : State) : Host.Outcome State Fault Refusal :=
  let r := s.memRead (s.pcRel off9)
  .next (r.2.setResult dr r.1)

/-- LDI: the pointer first, then the data it points at (R123). -/
def execLdi (dr : Reg) (off9 : BitVec 9) (s : State) : Host.Outcome State Fault Refusal :=
  let p := s.memRead (s.pcRel off9)
  let r := p.2.memRead p.1
  .next (r.2.setResult dr r.1)

/-- LDR: the address comes from the old base register (R124). -/
def execLdr (dr baseR : Reg) (off6 : BitVec 6) (s : State) : Host.Outcome State Fault Refusal :=
  let r := s.memRead (s.baseOff baseR off6)
  .next (r.2.setResult dr r.1)

/-- LEA: the address itself, with no memory access (R125). -/
def execLea (dr : Reg) (off9 : BitVec 9) (s : State) : Host.Outcome State Fault Refusal :=
  .next (s.setResult dr (s.pcRel off9))

/-- ST (R126). -/
def execSt (sr : Reg) (off9 : BitVec 9) (s : State) : Host.Outcome State Fault Refusal :=
  .next (s.memWrite (s.pcRel off9) (s.reg sr))

/-- STI: the pointer is read, then the store is made (R127). -/
def execSti (sr : Reg) (off9 : BitVec 9) (s : State) : Host.Outcome State Fault Refusal :=
  let p := s.memRead (s.pcRel off9)
  .next (p.2.memWrite p.1 (p.2.reg sr))

/-- STR (R128). -/
def execStr (sr baseR : Reg) (off6 : BitVec 6) (s : State) : Host.Outcome State Fault Refusal :=
  .next (s.memWrite (s.baseOff baseR off6) (s.reg sr))

end Sys2Proof.Machine
end

