-- ==== Sys2Proof/Machine/Operate.lean ====
section
/-!
DEFINITION. ADD, AND, NOT (`41_operate.md`). Sources are read before the destination is written
(R36); sums wrap modulo 65536 and nothing records a carry or an overflow (R10, R105).
-/

namespace Sys2Proof.Machine

/-- ADD, register form (R100). -/
def execAddReg (dr sr1 sr2 : Reg) (s : State) : Host.Outcome State Fault Refusal :=
  .next (s.setResult dr (s.reg sr1 + s.reg sr2))

/-- ADD, immediate form (R101). -/
def execAddImm (dr sr1 : Reg) (imm5 : BitVec 5) (s : State) : Host.Outcome State Fault Refusal :=
  .next (s.setResult dr (s.reg sr1 + sext imm5))

/-- AND, register form (R102). -/
def execAndReg (dr sr1 sr2 : Reg) (s : State) : Host.Outcome State Fault Refusal :=
  .next (s.setResult dr (s.reg sr1 &&& s.reg sr2))

/-- AND, immediate form (R103). -/
def execAndImm (dr sr1 : Reg) (imm5 : BitVec 5) (s : State) : Host.Outcome State Fault Refusal :=
  .next (s.setResult dr (s.reg sr1 &&& sext imm5))

/-- NOT (R104). -/
def execNot (dr sr : Reg) (s : State) : Host.Outcome State Fault Refusal :=
  .next (s.setResult dr (~~~ s.reg sr))

end Sys2Proof.Machine
end

