-- ==== Sys2Proof/Machine/Dispatch.lean ====
section
/-!
DEFINITION. One arm per instruction (R92: "one case per opcode" and no default case).
-/

namespace Sys2Proof.Machine

def exec (i : Instr) (s : State) : Host.Outcome State Fault Refusal :=
  match i with
  | .br n z p off9 => Sys2Proof.Machine.execBr n z p off9 s
  | .addReg dr sr1 sr2 => Sys2Proof.Machine.execAddReg dr sr1 sr2 s
  | .addImm dr sr1 imm5 => Sys2Proof.Machine.execAddImm dr sr1 imm5 s
  | .ld dr off9 => Sys2Proof.Machine.execLd dr off9 s
  | .st sr off9 => Sys2Proof.Machine.execSt sr off9 s
  | .jsrr baseR => Sys2Proof.Machine.execJsrr baseR s
  | .jsr off11 => Sys2Proof.Machine.execJsr off11 s
  | .andReg dr sr1 sr2 => Sys2Proof.Machine.execAndReg dr sr1 sr2 s
  | .andImm dr sr1 imm5 => Sys2Proof.Machine.execAndImm dr sr1 imm5 s
  | .ldr dr baseR off6 => Sys2Proof.Machine.execLdr dr baseR off6 s
  | .str sr baseR off6 => Sys2Proof.Machine.execStr sr baseR off6 s
  | .rti low12 => Sys2Proof.Machine.execRti low12 s
  | .notReg dr sr => Sys2Proof.Machine.execNot dr sr s
  | .ldi dr off9 => Sys2Proof.Machine.execLdi dr off9 s
  | .sti sr off9 => Sys2Proof.Machine.execSti sr off9 s
  | .jmp baseR => Sys2Proof.Machine.execJmp baseR s
  | .res low12 => Sys2Proof.Machine.execRes low12 s
  | .lea dr off9 => Sys2Proof.Machine.execLea dr off9 s
  | .trapGetc => Sys2Proof.Machine.execGetc s
  | .trapOut => Sys2Proof.Machine.execOut s
  | .trapPuts => Sys2Proof.Machine.execPuts s
  | .trapIn => Sys2Proof.Machine.execIn s
  | .trapPutsp => Sys2Proof.Machine.execPutsp s
  | .trapHalt => Sys2Proof.Machine.execHalt s
  | .trapVec00To1F hi4 vec => Sys2Proof.Machine.execVec00To1F hi4 vec s
  | .trapVec26To27 hi4 vec => Sys2Proof.Machine.execVec26To27 hi4 vec s
  | .trapVec28To2F hi4 vec => Sys2Proof.Machine.execVec28To2F hi4 vec s
  | .trapVec30To3F hi4 vec => Sys2Proof.Machine.execVec30To3F hi4 vec s
  | .trapVec40To7F hi4 vec => Sys2Proof.Machine.execVec40To7F hi4 vec s
  | .trapVec80ToFF hi4 vec => Sys2Proof.Machine.execVec80ToFF hi4 vec s

end Sys2Proof.Machine
end

