-- ==== Sys2Proof/Machine/Step.lean ====
section
/-!
DEFINITION. One step of the engine (R90) and the placing of an instruction for the next one.
-/

namespace Sys2Proof.Machine

/-- One step: fetch, increment, decode, execute (R90), while `run = Running`; nothing at all in
`Halted` or `Faulted` (R96, D17; log 19); and while an instruction's step has not completed, that
instruction goes on and no other executes (R94, R151; log 12). -/
def step (s : State) : Host.Outcome State Fault Refusal :=
  match s.run with
  | .halted => .next s
  | .faulted _ => .next s
  | .running =>
    match s.hold with
    | .idle => exec (decode s.fetch.1) s.fetch.2
    | _ => .next s.resume

/-- `s` with the instruction word `w` (its low `nbits` bits, zeros above) where `step` fetches its next
instruction, so that the very next step runs it (log 25). -/
def State.withFetchWord (s : State) (nbits w : Nat) : State :=
  s.place (BitVec.ofNat 16 (w % 2 ^ nbits))

end Sys2Proof.Machine
end

