-- ==== Sys2Proof/Machine/Platform.lean ====
section
/-!
DEFINITION. The boundary of the block (R199): what each transaction does to the state, then `Block`,
which says when the host may use it and what it gets back, and what the console agent does between
steps (R61). No instruction calls these.
-/

namespace Sys2Proof.Machine

/-- What a step reports (R95). -/
inductive StepOutcome where
  | continue
  | halted
  | faulted (reason : FaultReason)
  deriving DecidableEq, Repr

/-- The outcome is a function of `run` after the step (R95). The spec gives none before a step has
completed; in a state where one is held this function reads `Continue`, the model's choice (log 12,
log 13), and `Block.reported` tells the host nothing yet. -/
def State.outcome (s : State) : StepOutcome :=
  match s.run with
  | .running => .continue
  | .halted => .halted
  | .faulted reason => .faulted reason

/-- The reset event, allowed in any run state: the state of R34, the console's input untouched
(R190, D18; log 20). -/
def State.hostReset (s : State) : State := { State.reset with console := s.console }

/-- What the load of one word does: a plain store (R194, R199). It may be made only before the first
step; that guard is `Block.act`'s. -/
def State.hostLoadWord (s : State) (a v : Word) : State := s.memWrite a v

/-- The stores of the host's loader: the words of an image from its origin on. It stops at the top of
memory and never wraps (R196, R197, D21; log 27). The guard is `Block.loadFile`'s. -/
def State.hostLoadImage (s : State) (origin : Nat) : List Word → State
  | [] => s
  | v :: vs =>
    if origin < 65536 then (s.hostLoadWord (BitVec.ofNat 16 origin) v).hostLoadImage (origin + 1) vs
    else s

/-- The words of an image file: two bytes each, the most significant first (R196). A file that is not
a whole number of words has no reading here. -/
def imageWords : List Byte → Option (List Word)
  | [] => some []
  | [_] => none
  | hi :: lo :: rest => (imageWords rest).map (fun ws => (hi ++ lo : Word) :: ws)

/-- The stores of an image file: the first word is the origin and is not itself stored (R196). The
spec is silent on a file that is not a whole number of words and on one with no word at all, and so
no origin: neither has a reading here, the model's choice (log 27). -/
def State.hostLoadFile (s : State) (file : List Byte) : Option State :=
  match imageWords file with
  | some (origin :: ws) => some (s.hostLoadImage origin.toNat ws)
  | _ => none

/-- The console agent gets more input to deliver, after what it already has (R61). -/
def State.consoleSupply (s : State) (bs : List Byte) : State :=
  { s with console := { s.console with incoming := s.console.incoming ++ bs } }

/-- The next character arrives between steps: it becomes pending and stays so until it is consumed
(R61). -/
def State.consoleArrive (s : State) : State :=
  match s.console.incoming with
  | [] => s
  | b :: rest => { s with console := { s.console with pending := s.console.pending ++ [b], incoming := rest } }

/-! ### When the host may do what (R199) -/

/-- How far the host has come with the block (log 28). -/
inductive Phase where
  /-- After reset and before the first step: the host may load. -/
  | loading
  /-- A first step has been made. -/
  | started
  /-- The host has cancelled the run: nothing is claimed of its state (R166, D19; log 21). -/
  | abandoned
  deriving DecidableEq, Repr

/-- The block as its boundary sees it: its state, and the phase that decides what is allowed. The
phase belongs to the boundary; no instruction can tell it (log 28). -/
structure Block where
  state : State
  phase : Phase
  deriving DecidableEq, Repr

/-- The block after the first reset. -/
def Block.initial : Block := ⟨State.reset, .loading⟩

/-- A move of the host (R199) or of the console agent (R6, R61). -/
inductive Move where
  | reset
  | load (addr value : Word)
  | step
  | cancel
  | supply (bs : List Byte)
  | arrive
  deriving DecidableEq, Repr

/-- A step asked for (R96, R199). In `Halted` or `Faulted` no step is performed (D17, log 19). -/
def Block.step (b : Block) : Option Block :=
  if b.state.run = .running then
    match Sys2Proof.Machine.step b.state with
    | .next t => some ⟨t, .started⟩
    | .fault _ => none
    | .refused _ => none
  else some b

/-- What a move makes of the block; `none` where R199 does not allow it. Reset is allowed at any time,
load only after reset and before the first step, cancel at any time; of an abandoned run only reset
is left to the host, the model's choice (D19, log 21). The console agent fills its own queue whenever it likes. -/
def Block.act (b : Block) : Move → Option Block
  | .reset => some ⟨b.state.hostReset, .loading⟩
  | .load addr value =>
    if b.phase = .loading then some { b with state := b.state.hostLoadWord addr value } else none
  | .step => if b.phase = .abandoned then none else b.step
  | .cancel => some { b with phase := .abandoned }
  | .supply bs => some { b with state := b.state.consoleSupply bs }
  | .arrive => some { b with state := b.state.consoleArrive }

/-- One image file loaded, allowed as a load is; `none` when the load fails (R196, R198). -/
def Block.loadFile (b : Block) (file : List Byte) : Option Block :=
  if b.phase = .loading then (b.state.hostLoadFile file).map (fun s => { b with state := s }) else none

/-- Several images, in order, later ones over earlier ones; if any load fails the engine is never
started (R198). -/
def Block.loadFiles (b : Block) : List (List Byte) → Option Block
  | [] => some b
  | file :: files =>
    match b.loadFile file with
    | some b' => b'.loadFiles files
    | none => none

/-- The step outcome the host gets: after each step, and so not while a step is held (R95, R151,
R199; log 12, log 13). -/
def Block.reported (b : Block) : Option StepOutcome :=
  if b.phase = .started ∧ b.state.hold = .idle then some b.state.outcome else none

/-- The state read back: when `run` is not `Running` (R199), and never of an abandoned run (R166). -/
def Block.readBack (b : Block) : Option State :=
  if b.phase = .abandoned ∨ b.state.run = .running then none else some b.state

/-- The load pins of R205, honoured only before the first step and ignored after it. -/
def Block.loadPins (b : Block) (loadEn : Bool) (loadAddr loadData : Word) : Block :=
  if loadEn then (b.act (.load loadAddr loadData)).getD b else b

/-! ### Signals (R205) -/

/-- The level signals of R205's illustration of the boundary (D23, log 26). -/
structure Levels where
  kbdReady : Bool
  kbdChar  : Option Byte
  halted   : Bool
  faulted  : Bool
  /-- `fault_kind` with `fault_ir`. -/
  fault    : Option FaultReason
  deriving DecidableEq, Repr

/-- The levels a state shows (R205). -/
def State.levels (s : State) : Levels where
  kbdReady := !s.console.pending.isEmpty
  kbdChar := s.console.pending.head?
  halted := decide (s.run = .halted)
  faulted := match s.run with
    | .faulted _ => true
    | _ => false
  fault := match s.run with
    | .faulted reason => some reason
    | _ => none

/-- The bytes `con_valid` and `con_char` carry between two states of a run, in order (R205). -/
def conChars (s t : State) : List Byte := t.out.drop s.out.length

/-- How many `kbd_take` pulses there were between two states of a run, when no input was supplied in
between (R205). -/
def kbdTakes (s t : State) : Nat :=
  (s.console.pending ++ s.console.incoming).length - (t.console.pending ++ t.console.incoming).length

end Sys2Proof.Machine
end

