-- ==== Sys2Proof/Safety.lean ====
section
/-!
DEFINITION. The terms the claims are stated in: the invariant of the machine, how a run ends, what two
states have in common, and the spec's read, store and result rules as relations between states, each
written from the spec's own words and not from the meaning it is used to check.
-/

namespace Sys2Proof.Safety

open Sys2Proof Sys2Proof.Machine

/-! ### Runs -/

/-- What every step keeps: memory is in its canonical form, and only a running engine has a step under
way. -/
abbrev Inv (s : State) : Prop := s.mem.wf ∧ (s.hold ≠ .idle → s.run = .running)

/-- The engine is between two instructions and will execute the next one (R96). -/
abbrev Ready (s : State) : Prop := s.run = .running ∧ s.hold = .idle

/-- A normal end of a run (R97: "only `Halted` is a normal end"). -/
abbrev GoodEnd (s : State) : Prop := s.run = .halted

/-- A failed run (R97, R171). -/
abbrev Failed (s : State) : Prop := ∃ reason, s.run = .faulted reason

/-! ### What two states have in common -/

/-- Every cell reads as before. -/
abbrev SameMem (s t : State) : Prop := ∀ a, t.mem.read a = s.mem.read a

/-- Every cell but `a` reads as before. -/
abbrev MemExcept (a : Word) (s t : State) : Prop := ∀ b, b ≠ a → t.mem.read b = s.mem.read b

/-- Every general register reads as before. -/
abbrev SameRegs (s t : State) : Prop := ∀ r, t.reg r = s.reg r

/-- Every general register but `d` reads as before. -/
abbrev RegsExcept (d : Reg) (s t : State) : Prop := ∀ r, r ≠ d → t.reg r = s.reg r

/-- The run state and the console's two sides are as before. -/
abbrev SameWorld (s t : State) : Prop :=
  t.run = s.run ∧ t.out = s.out ∧ t.console = s.console ∧ t.hold = s.hold

/-- Everything but `pc` is as before. -/
abbrev OnlyPc (s t : State) : Prop :=
  SameRegs s t ∧ t.cond = s.cond ∧ SameMem s t ∧ SameWorld s t

/-- The same state but for the stored content of 0xFE00, which no read returns (R43, D9). -/
abbrev KbsrBlind (s t : State) : Prop :=
  t.regs = s.regs ∧ t.pc = s.pc ∧ t.cond = s.cond ∧ SameWorld s t ∧ MemExcept 0xFE00#16 s t

/-! ### The spec's rules as relations -/

/-- `c` is the flag of the value `v` read as a signed 16-bit integer (R27). -/
abbrev FlagOf (v : Word) (c : Cond) : Prop :=
  (v.toInt < 0 → c = .n) ∧ (v.toInt = 0 → c = .z) ∧ (0 < v.toInt → c = .p)

/-- From `s` to `t` a flag-setting instruction wrote `v` to `dr` and set the flag from it, and nothing
else changed (R28, R36). -/
abbrev Results (s t : State) (dr : Reg) (v : Word) : Prop :=
  t.reg dr = v ∧ RegsExcept dr s t ∧ FlagOf v t.cond ∧ t.pc = s.pc ∧ SameMem s t ∧ SameWorld s t

/-- From `s` to `t` the word `v` was stored at `a`, and nothing else changed (R45). -/
abbrev Stores (s t : State) (a v : Word) : Prop :=
  t.mem.read a = v ∧ MemExcept a s t ∧ SameRegs s t ∧ t.pc = s.pc ∧ t.cond = s.cond ∧ SameWorld s t

/-- A status read that found the character `b` staged it (R43, D9, D10). -/
abbrev Staged (s t : State) (v : Word) (b : Byte) : Prop :=
  v = 0x8000#16 ∧ t.mem.read 0xFE02#16 = b.setWidth 16 ∧ MemExcept 0xFE02#16 s t

/-- A read of the keyboard status register from `s` to `t` gave `v` (R43, R61, D9, D10, D11). Where
the next character has not been found pending yet, both answers are allowed. -/
abbrev StatusRead (s t : State) (v : Word) : Prop :=
  (∀ b rest, s.console.pending = b :: rest →
    Staged s t v b ∧ t.console.pending = rest ∧ t.console.incoming = s.console.incoming) ∧
  (s.console.pending = [] → s.console.incoming = [] →
    v = 0x0000#16 ∧ SameMem s t ∧ t.console = s.console) ∧
  (∀ b rest, s.console.pending = [] → s.console.incoming = b :: rest →
    (Staged s t v b ∧ t.console.pending = [] ∧ t.console.incoming = rest) ∨
    (v = 0x0000#16 ∧ SameMem s t ∧ t.console.pending = [] ∧ t.console.incoming = b :: rest))

/-- `MemRead(a, 1)` from `s` to `t` gave `v` (R42, R43, R47): plain everywhere but at 0xFE00. -/
abbrev Reads (s t : State) (a v : Word) : Prop :=
  SameRegs s t ∧ t.pc = s.pc ∧ t.cond = s.cond ∧ t.run = s.run ∧ t.out = s.out ∧ t.hold = s.hold ∧
  (a ≠ 0xFE00#16 → v = s.mem.read a ∧ SameMem s t ∧ t.console = s.console) ∧
  (a = 0xFE00#16 → StatusRead s t v)

/-- The words of a string: `n` of them from `a` on (R143, R145; addresses wrap). -/
def wordsFrom (s : State) (a : Word) (n : Nat) : List Word :=
  (List.range n).map (fun k => s.mem.read (a + BitVec.ofNat 16 k))

/-- The loop of PUTS from address `a`, as R143 writes it, ends in `t`: however long it goes on, and
through whatever it reads. -/
inductive PutsEnds : Word → State → State → Prop where
  | stop {a s} (h : (s.memRead a).1 = 0x0000#16) :
      PutsEnds a s { (s.memRead a).2 with hold := .idle }
  | more {a s t} (h : (s.memRead a).1 ≠ 0x0000#16)
      (rest : PutsEnds (a + 1#16) ((s.memRead a).2.consoleWrite ((s.memRead a).1.extractLsb' 0 8)) t) :
      PutsEnds a s t

/-! ### What an instruction may touch (R24, R28, R36) -/

/-- The destination of the seven flag-setting opcodes ADD, AND, NOT, LD, LDI, LDR, LEA (R28). -/
def flagDest : Instr → Option Reg
  | .addReg dr _ _ => some dr
  | .addImm dr _ _ => some dr
  | .andReg dr _ _ => some dr
  | .andImm dr _ _ => some dr
  | .notReg dr _ => some dr
  | .ld dr _ => some dr
  | .ldi dr _ => some dr
  | .ldr dr _ _ => some dr
  | .lea dr _ => some dr
  | _ => none

/-- The general register an instruction writes (R21, R36). -/
def regWritten : Instr → Option Reg
  | .jsr _ => some 7
  | .jsrr _ => some 7
  | .trapGetc => some 0
  | .trapIn => some 0
  | i => flagDest i

/-- The store instructions (R41, R63). -/
def isStore : Instr → Bool
  | .st _ _ => true
  | .sti _ _ => true
  | .str _ _ _ => true
  | _ => false

/-- The control transfers (R24, R114). -/
def isControl : Instr → Bool
  | .br _ _ _ _ => true
  | .jmp _ => true
  | .jsr _ => true
  | .jsrr _ => true
  | _ => false

/-- The two illegal opcodes (R78, R160). -/
def isIllegalOpcode : Instr → Bool
  | .rti _ => true
  | .res _ => true
  | _ => false

/-- TRAP with an unrecognised vector (R79, R147, R160). -/
def isBadVector : Instr → Bool
  | .trapVec00To1F _ _ => true
  | .trapVec26To27 _ _ => true
  | .trapVec28To2F _ _ => true
  | .trapVec30To3F _ _ => true
  | .trapVec40To7F _ _ => true
  | .trapVec80ToFF _ _ => true
  | _ => false

end Sys2Proof.Safety
end

