-- ==== Sys2Proof/Certificates/Slice0/Obligations.lean ====
section
/-!
DEFINITION. The statements for the provers. Each docstring names what it formalises; where a clause
rests on one of the spec's own decisions (D<n>) or on a choice of the model, it says so and names the
log entry.
-/

section
open Sys2Proof Sys2Proof.Machine Sys2Proof.Safety

/-! ### Encoding -/

/-- Decoding the word of a well-formed instruction gives the instruction back, every operand at every
value. The layout is the spec's decisions D1 to D4 (log 3, log 4, log 5). -/
def Obligations.DecodeEncodeRoundTrip : Prop :=
  ∀ i : Instr, i.wellFormed = true → decode (encode i) = i

/-- R72 to R76 read field by field: what each word decodes to, whatever its unused bits hold. The
positions are the spec's decisions D1 to D4 (log 3, log 4, log 5). -/
def Obligations.DecodeReadsEachField : Prop :=
  ∀ w : Word,
    let op : BitVec 4 := w.extractLsb' 12 4
    let at9 : Reg := (w.extractLsb' 9 3).toFin
    let at6 : Reg := (w.extractLsb' 6 3).toFin
    let at0 : Reg := (w.extractLsb' 0 3).toFin
    let off9 : BitVec 9 := w.extractLsb' 0 9
    (op = 0#4 → decode w = .br (w.getLsbD 11) (w.getLsbD 10) (w.getLsbD 9) off9) ∧
    (op = 1#4 → w.getLsbD 5 = false → decode w = .addReg at9 at6 at0) ∧
    (op = 1#4 → w.getLsbD 5 = true → decode w = .addImm at9 at6 (w.extractLsb' 0 5)) ∧
    (op = 2#4 → decode w = .ld at9 off9) ∧
    (op = 3#4 → decode w = .st at9 off9) ∧
    (op = 4#4 → w.getLsbD 11 = true → decode w = .jsr (w.extractLsb' 0 11)) ∧
    (op = 4#4 → w.getLsbD 11 = false → decode w = .jsrr at6) ∧
    (op = 5#4 → w.getLsbD 5 = false → decode w = .andReg at9 at6 at0) ∧
    (op = 5#4 → w.getLsbD 5 = true → decode w = .andImm at9 at6 (w.extractLsb' 0 5)) ∧
    (op = 6#4 → decode w = .ldr at9 at6 (w.extractLsb' 0 6)) ∧
    (op = 7#4 → decode w = .str at9 at6 (w.extractLsb' 0 6)) ∧
    (op = 8#4 → decode w = .rti (w.extractLsb' 0 12)) ∧
    (op = 9#4 → decode w = .notReg at9 at6) ∧
    (op = 10#4 → decode w = .ldi at9 off9) ∧
    (op = 11#4 → decode w = .sti at9 off9) ∧
    (op = 12#4 → decode w = .jmp at6) ∧
    (op = 13#4 → decode w = .res (w.extractLsb' 0 12)) ∧
    (op = 14#4 → decode w = .lea at9 off9) ∧
    (op = 15#4 →
      (w.extractLsb' 0 8 = 0x20#8 → decode w = .trapGetc) ∧
      (w.extractLsb' 0 8 = 0x21#8 → decode w = .trapOut) ∧
      (w.extractLsb' 0 8 = 0x22#8 → decode w = .trapPuts) ∧
      (w.extractLsb' 0 8 = 0x23#8 → decode w = .trapIn) ∧
      (w.extractLsb' 0 8 = 0x24#8 → decode w = .trapPutsp) ∧
      (w.extractLsb' 0 8 = 0x25#8 → decode w = .trapHalt) ∧
      ((w.extractLsb' 0 8).toNat < 0x20 ∨ 0x25 < (w.extractLsb' 0 8).toNat →
        isBadVector (decode w) = true))

/-- R84: every word decodes to a well-formed instruction, lies in that instruction's row of the opcode
table and in no other row. The rows rest on the spec's decisions D1 to D3 (log 3, log 4). -/
def Obligations.EachWordLiesInExactlyItsRow : Prop :=
  ∀ w : Word,
    (decode w).wellFormed = true ∧
    w &&& (decode w).row.mask = (decode w).row.value ∧
    ∀ i : Instr, w &&& i.row.mask = i.row.value → i.row = (decode w).row

/-- R77: a word is determined by its instruction but for the unused bits, and a word that differs from
it in unused bits only decodes to the same instruction. That they are ignored is the spec's decision
D4 (log 5). -/
def Obligations.OnlyUnusedBitsAreIgnored : Prop :=
  (∀ w : Word,
    encode (decode w) &&& ~~~ (decode w).unusedBits = w &&& ~~~ (decode w).unusedBits) ∧
  ∀ w w' : Word,
    w' &&& ~~~ (decode w).unusedBits = w &&& ~~~ (decode w).unusedBits → decode w' = decode w

/-- A few words written out from the layout of R73 decode to the instructions they stand for (D1 to
D4; log 3, log 4, log 5). -/
def Obligations.WrittenWordsDecode : Prop :=
  decode 0b0001_010_000_0_00_001#16 = .addReg 2 0 1 ∧
  decode 0b0001_001_001_1_11111#16 = .addImm 1 1 0b11111#5 ∧
  decode 0b0101_001_010_1_10000#16 = .andImm 1 2 0b10000#5 ∧
  decode 0b1001_000_000_111111#16 = .notReg 0 0 ∧
  decode 0b0000_001_111111011#16 = .br false false true 0b111111011#9 ∧
  decode 0b1100_000_111_000000#16 = .jmp 7 ∧
  decode 0b0100_1_00000000101#16 = .jsr 0b101#11 ∧
  decode 0b0100_0_00_011_000000#16 = .jsrr 3 ∧
  decode 0b1010_100_000000010#16 = .ldi 4 0b10#9 ∧
  decode 0b0111_000_110_111111#16 = .str 0 6 0b111111#6 ∧
  decode 0b1111_0001_00100101#16 = .trapHalt ∧
  decode 0b1111_0000_00100110#16 = .trapVec26To27 0#4 0x26#8 ∧
  decode 0b1000_000000000000#16 = .rti 0#12

/-! ### Reset and the invariant -/

/-- The state after reset (R34). The values of R0 to R7 are the spec's decision D6 (log 2), the empty
`out` its decision D11 and the empty console input the model's choice (log 20). -/
def Obligations.ResetValues : Prop :=
  State.reset.pc = 0x3000#16 ∧ State.reset.cond = .z ∧ State.reset.run = .running ∧
  (∀ a, State.reset.mem.read a = 0x0000#16) ∧
  (∀ r, State.reset.reg r = 0x0000#16) ∧ State.reset.out = [] ∧
  State.reset.console.pending = [] ∧ State.reset.console.incoming = [] ∧ State.reset.hold = .idle

/-- Reset meets the invariant: memory in its canonical form (log 1), no step under way (log 12). -/
def Obligations.ResetMeetsInvariant : Prop := Inv State.reset

/-- Every step from a state that meets the invariant gives one that meets it. The canonical form of
memory and the step under way are the model's own (log 1, log 12). -/
def Obligations.StepKeepsInvariant : Prop :=
  ∀ s t : State, Inv s → step s = .next t → Inv t

/-! ### Flags, extension, memory, console -/

/-- R27: `SetCC` sets exactly the flag of the value read as a signed 16-bit integer, and only that. -/
def Obligations.SetCCFollowsTheSign : Prop :=
  ∀ (s : State) (v : Word),
    ∃ c, s.setCC v = { s with cond := c } ∧ FlagOf v c ∧
      (c = .z ↔ v = 0x0000#16) ∧ (c = .n ↔ v ≠ 0x0000#16 ∧ v.getLsbD 15 = true) ∧
      (c = .p ↔ v ≠ 0x0000#16 ∧ v.getLsbD 15 = false)

/-- R11: sign extension keeps the integer, has the field as its low bits and copies of its sign bit
above; `zext_8` puts a zero byte above. -/
def Obligations.ExtensionKeepsTheInteger : Prop :=
  (∀ k, k = 5 ∨ k = 6 ∨ k = 9 ∨ k = 11 → ∀ f : BitVec k,
    (sext f).toInt = f.toInt ∧ (sext f).extractLsb' 0 k = f ∧
    (∀ j, k ≤ j → j < 16 → (sext f).getLsbD j = f.getLsbD (k - 1)) ∧
    (f.getLsbD (k - 1) = false → (sext f).toNat = f.toNat) ∧
    (f.getLsbD (k - 1) = true → (sext f).toNat = f.toNat + 65536 - 2 ^ k)) ∧
  ∀ b : Byte, zext8 b = 0x00#8 ++ b

/-- R45: a store writes its one cell and does nothing else, at every address. -/
def Obligations.StoreWritesItsCellOnly : Prop :=
  ∀ (s : State) (a v : Word), Stores s (s.memWrite a v) a v

/-- The read contract R42 away from 0xFE00: the stored word, and no side effect at all. -/
def Obligations.PlainReadHasNoSideEffect : Prop :=
  ∀ (s : State) (a : Word), a ≠ 0xFE00#16 → s.memRead a = (s.mem.read a, s)

/-- The keyboard data register is a plain cell (R44): reading it gives the stored word and changes
nothing, a store there is what the next read gives, after a status read that consumed a pending
character the low byte is that character (the spec's decision D10, log 8), and after reset it reads
0x0000. -/
def Obligations.KeyboardDataIsAPlainCell : Prop :=
  (∀ s : State, s.memRead 0xFE02#16 = (s.mem.read 0xFE02#16, s)) ∧
  (∀ (s : State) (v : Word), ((s.memWrite 0xFE02#16 v).memRead 0xFE02#16).1 = v) ∧
  (∀ (s : State) (b : Byte) (rest : List Byte), s.console.pending = b :: rest →
    (((s.memRead 0xFE00#16).2.memRead 0xFE02#16).1).extractLsb' 0 8 = b) ∧
  (State.reset.memRead 0xFE02#16).1 = 0x0000#16

/-- Every read of memory is a read in the sense of R42 and R43. The exact status word, the consuming
and the staged high byte are the spec's decisions D9, D10 (log 7, log 8); the free answer is D11
(log 10). -/
def Obligations.EveryReadFollowsTheContract : Prop :=
  ∀ (s : State) (a : Word), Reads s (s.memRead a).2 a (s.memRead a).1

/-- The console law of R61 (the spec's decision D11, log 10): a poll consumes nothing and keeps the
order of the input; what it finds pending stays pending until a read takes it; a read takes the
first character of the input and no other; with no input at all a poll says no and a read waits. -/
def Obligations.PolledCharacterIsTheOneRead : Prop :=
  ∀ c : Console,
    (c.poll.2.pending ++ c.poll.2.incoming = c.pending ++ c.incoming) ∧
    (c.poll.1 = true → c.poll.2.pending ≠ [] ∧ c.poll.2.poll = (true, c.poll.2)) ∧
    (c.pending ≠ [] → c.poll = (true, c)) ∧
    (∀ b rest, c.pending ++ c.incoming = b :: rest →
      ∃ c', c.read = some (b, c') ∧ c'.pending ++ c'.incoming = rest) ∧
    (c.pending = [] → c.incoming = [] → c.poll = (false, c) ∧ c.read = none)

/-! ### The step -/

/-- R90, R91: when the word at `pc` decodes to `i`, a step of a ready engine is `i` executed with `pc`
incremented (modulo 65536). Away from 0xFE00; the other case is `FetchAtKeyboardStatus`. -/
def Obligations.StepRunsTheDecodedInstruction : Prop :=
  ∀ (s : State) (i : Instr), Ready s → s.pc ≠ 0xFE00#16 → decode (s.mem.read s.pc) = i →
    step s = exec i { s with pc := s.pc + 1#16 }

/-- A fetch from 0xFE00 (R91, R98; that the intercept covers it, and its word, are the spec's decisions
D8, D9, D10, log 7, log 8, log 9): with a character pending it executes 0x8000, an RTI word, and the
character is staged; with no input it executes 0x0000, a BR that is never taken; while the next
character is still to arrive either may happen (D11, log 10). That 0x8000 is RTI and 0x0000 BR is D1
(log 3); that the fault carries the whole word and leaves everything else, `pc` past the fetch, is D16
(R148, R163, log 18). -/
def Obligations.FetchAtKeyboardStatus : Prop :=
  ∀ s : State, Ready s → s.pc = 0xFE00#16 →
    (∀ b rest, s.console.pending = b :: rest →
      step s = .next
        { s with pc := 0xFE01#16, run := .faulted (.illegalOpcode 0x8000#16)
                 mem := s.mem.write 0xFE02#16 (b.setWidth 16)
                 console := { s.console with pending := rest } }) ∧
    (s.console.pending = [] → s.console.incoming = [] →
      step s = .next { s with pc := 0xFE01#16 }) ∧
    (∀ b rest, s.console.pending = [] → s.console.incoming = b :: rest →
      ∃ t, step s = .next t ∧ t.pc = 0xFE01#16 ∧ SameRegs s t ∧ t.cond = s.cond ∧ t.out = s.out ∧
        t.hold = .idle ∧ t.console.pending = [] ∧
        ((t.run = .faulted (.illegalOpcode 0x8000#16) ∧ Staged s t 0x8000#16 b ∧
            t.console.incoming = rest) ∨
          (t.run = .running ∧ SameMem s t ∧ t.console.incoming = b :: rest)))

/-- R96: in `Halted` or `Faulted` nothing changes; that a step asked for then reports the same outcome
again is the spec's decision D17 (log 19). -/
def Obligations.EndedRunDoesNotStep : Prop :=
  ∀ s : State, s.run ≠ .running → step s = .next s

/-- A step's outcome, read off `run` (R95), is `Halted` exactly when its instruction is TRAP x25,
`Faulted` exactly when it is RTI, RES or TRAP with an unrecognised vector, and `Continue` otherwise.
That a GETC or IN that waits and a PUTS longer than a lap, whose step has not returned, answer a next
state that reads `Continue` is the model's choice (D20, log 12, log 13). -/
def Obligations.StepOutcomeByInstruction : Prop :=
  ∀ s : State, Ready s →
    ∃ t, step s = .next t ∧
      (t.outcome = .halted ↔ decode s.fetch.1 = .trapHalt) ∧
      ((∃ reason, t.outcome = .faulted reason) ↔
        isIllegalOpcode (decode s.fetch.1) = true ∨ isBadVector (decode s.fetch.1) = true) ∧
      (t.outcome = .continue ↔
        ¬ (decode s.fetch.1 = .trapHalt ∨ isIllegalOpcode (decode s.fetch.1) = true ∨
          isBadVector (decode s.fetch.1) = true))

/-- A step always answers a next state: nothing the spec gives an effect stops the model. That a step
which has to wait is a next state too is the model's choice (D20, log 12, log 13, log 22). In `Halted`
and `Faulted` no step is performed (R96); that one asked for there answers a next state is D17
(log 19). -/
def Obligations.StepAlwaysAnswersNext : Prop :=
  ∀ s : State, ∃ t, step s = .next t

/-- A word placed for the next fetch is the instruction the next step runs (the model's own
`withFetchWord`, log 25). -/
def Obligations.PlacedWordRunsNext : Prop :=
  ∀ (s : State) (ir : Word),
    (s.pc ≠ 0xFE00#16 →
      step (s.withFetchWord 16 ir.toNat) = exec (decode ir)
        { s with mem := s.mem.write s.pc ir, pc := s.pc + 1#16, run := .running, hold := .idle }) ∧
    (s.pc = 0xFE00#16 →
      step (s.withFetchWord 16 ir.toNat) = exec (decode ir)
        { s with mem := s.mem.write 0x3000#16 ir, pc := 0x3001#16, run := .running, hold := .idle })

/-! ### Operate instructions -/

/-- ADD, both forms (R100, R101, R105): the low 16 bits of the sum, the flag from it, nothing else. -/
def Obligations.AddGivesTheWrappedSum : Prop :=
  ∀ (dr sr1 sr2 : Reg) (imm5 : BitVec 5) (s : State),
    (∃ t v, exec (.addReg dr sr1 sr2) s = .next t ∧ Results s t dr v ∧
      v.toNat = ((s.reg sr1).toNat + (s.reg sr2).toNat) % 65536) ∧
    (∃ t v, exec (.addImm dr sr1 imm5) s = .next t ∧ Results s t dr v ∧
      v.toNat = ((s.reg sr1).toNat + (imm5.signExtend 16).toNat) % 65536)

/-- AND, both forms (R102, R103): bit by bit, the flag from the result, nothing else. -/
def Obligations.AndWorksBitByBit : Prop :=
  ∀ (dr sr1 sr2 : Reg) (imm5 : BitVec 5) (s : State),
    (∃ t v, exec (.andReg dr sr1 sr2) s = .next t ∧ Results s t dr v ∧
      ∀ k, v.getLsbD k = ((s.reg sr1).getLsbD k && (s.reg sr2).getLsbD k)) ∧
    (∃ t v, exec (.andImm dr sr1 imm5) s = .next t ∧ Results s t dr v ∧
      ∀ k, v.getLsbD k = ((s.reg sr1).getLsbD k && (imm5.signExtend 16).getLsbD k))

/-- NOT (R104): every bit inverted, `0xFFFF - x[SR]`, the flag from the result, nothing else. -/
def Obligations.NotInvertsEveryBit : Prop :=
  ∀ (dr sr : Reg) (s : State),
    ∃ t v, exec (.notReg dr sr) s = .next t ∧ Results s t dr v ∧
      v.toNat = 0xFFFF - (s.reg sr).toNat ∧ v ≠ s.reg sr

/-- R101's property: an ADD immediate whose extended immediate equals a register's value does what the
ADD register form does. -/
def Obligations.AddFormsAgree : Prop :=
  ∀ (dr sr1 sr2 : Reg) (imm5 : BitVec 5) (s : State), s.reg sr2 = imm5.signExtend 16 →
    exec (.addReg dr sr1 sr2) s = exec (.addImm dr sr1 imm5) s

/-! ### Control transfer -/

/-- BR (R110): taken exactly when a requested bit matches the flag; only `pc` can change. -/
def Obligations.BranchTakenOnMatchingFlag : Prop :=
  ∀ (n z p : Bool) (off9 : BitVec 9) (s : State),
    let taken := (n = true ∧ s.cond = .n) ∨ (z = true ∧ s.cond = .z) ∨ (p = true ∧ s.cond = .p)
    ∃ t, exec (.br n z p off9) s = .next t ∧ OnlyPc s t ∧
      (taken → t.pc = s.pc + off9.signExtend 16) ∧ (¬ taken → t.pc = s.pc)

/-- JMP (R111): `pc` takes the base register's value; nothing else changes. -/
def Obligations.JumpGoesToTheBaseRegister : Prop :=
  ∀ (baseR : Reg) (s : State),
    ∃ t, exec (.jmp baseR) s = .next t ∧ OnlyPc s t ∧ t.pc = s.reg baseR

/-- JSR (R112): R7 takes the address of the next word, `pc` the target; nothing else changes. -/
def Obligations.JsrLinksAndJumps : Prop :=
  ∀ (off11 : BitVec 11) (s : State),
    ∃ t, exec (.jsr off11) s = .next t ∧ t.reg 7 = s.pc ∧ t.pc = s.pc + off11.signExtend 16 ∧
      RegsExcept 7 s t ∧ t.cond = s.cond ∧ SameMem s t ∧ SameWorld s t

/-- JSRR (R113): R7 takes the address of the next word first, then `pc` the base register, so that
JSRR R7 goes to the next word. That order for R7 is recorded as the spec's decision D24 (log 23). -/
def Obligations.JsrrLinksBeforeItReads : Prop :=
  ∀ (baseR : Reg) (s : State),
    ∃ t, exec (.jsrr baseR) s = .next t ∧ t.reg 7 = s.pc ∧
      (baseR ≠ 7 → t.pc = s.reg baseR) ∧ (baseR = 7 → t.pc = s.pc) ∧
      RegsExcept 7 s t ∧ t.cond = s.cond ∧ SameMem s t ∧ SameWorld s t

/-! ### Loads and stores -/

/-- LD (R120, R122): one read at `pc + off9`, its word to DR, the flag from it. At 0xFE00 the read is
the status read (decisions D8 to D11, log 7 to log 10). -/
def Obligations.LdLoadsPcRelative : Prop :=
  ∀ (dr : Reg) (off9 : BitVec 9) (s : State),
    ∃ t m v, exec (.ld dr off9) s = .next t ∧
      Reads s m (s.pc + off9.signExtend 16) v ∧ Results m t dr v

/-- LDI (R123): a read of the pointer, then a read at the pointer, its word to DR, the flag from the
second word. Either read at 0xFE00 is the status read (decisions D8 to D11, log 7 to log 10). -/
def Obligations.LdiFollowsThePointer : Prop :=
  ∀ (dr : Reg) (off9 : BitVec 9) (s : State),
    ∃ t m₁ m₂ ptr v, exec (.ldi dr off9) s = .next t ∧
      Reads s m₁ (s.pc + off9.signExtend 16) ptr ∧ Reads m₁ m₂ ptr v ∧ Results m₂ t dr v

/-- LDR (R121, R124): one read at the old base register plus the offset. At 0xFE00 the read is the
status read (decisions D8 to D11, log 7 to log 10). -/
def Obligations.LdrLoadsBaseOffset : Prop :=
  ∀ (dr baseR : Reg) (off6 : BitVec 6) (s : State),
    ∃ t m v, exec (.ldr dr baseR off6) s = .next t ∧
      Reads s m (s.reg baseR + off6.signExtend 16) v ∧ Results m t dr v

/-- LEA (R125): the address itself to DR, the flag from it, and no access to memory or the console. -/
def Obligations.LeaGivesTheAddress : Prop :=
  ∀ (dr : Reg) (off9 : BitVec 9) (s : State),
    ∃ t, exec (.lea dr off9) s = .next t ∧ Results s t dr (s.pc + off9.signExtend 16)

/-- ST (R120, R126): the register's word at `pc + off9`, and nothing else. -/
def Obligations.StStoresPcRelative : Prop :=
  ∀ (sr : Reg) (off9 : BitVec 9) (s : State),
    ∃ t, exec (.st sr off9) s = .next t ∧ Stores s t (s.pc + off9.signExtend 16) (s.reg sr)

/-- STI (R127): a read of the pointer, then the register's word at the pointer, and nothing else. The
read at 0xFE00 is the status read (decisions D8 to D11, log 7 to log 10). -/
def Obligations.StiStoresThroughThePointer : Prop :=
  ∀ (sr : Reg) (off9 : BitVec 9) (s : State),
    ∃ t m ptr, exec (.sti sr off9) s = .next t ∧
      Reads s m (s.pc + off9.signExtend 16) ptr ∧ Stores m t ptr (s.reg sr)

/-- STR (R121, R128): the register's word at the base register plus the offset, and nothing else. -/
def Obligations.StrStoresBaseOffset : Prop :=
  ∀ (sr baseR : Reg) (off6 : BitVec 6) (s : State),
    ∃ t, exec (.str sr baseR off6) s = .next t ∧
      Stores s t (s.reg baseR + off6.signExtend 16) (s.reg sr)

/-- R59, R201: a word that ST, STR or STI stores where `pc` points is the next instruction executed. -/
def Obligations.StoredWordIsExecutedNext : Prop :=
  ∀ (i : Instr) (sr baseR : Reg) (off9 : BitVec 9) (off6 : BitVec 6) (s : State),
    Ready s → s.pc ≠ 0xFE00#16 →
    ((i = .st sr off9 ∧ s.pc + off9.signExtend 16 = s.pc) ∨
      (i = .str sr baseR off6 ∧ s.reg baseR + off6.signExtend 16 = s.pc) ∨
      (i = .sti sr off9 ∧ s.pc + off9.signExtend 16 ≠ 0xFE00#16 ∧
        s.mem.read (s.pc + off9.signExtend 16) = s.pc)) →
    ∃ t, exec i s = .next t ∧
      step t = exec (decode (s.reg sr)) { t with pc := s.pc + 1#16 }

/-! ### Trap routines -/

/-- GETC (R141): with input, the first character to R0, zero-extended, consumed and not echoed; the
flag and everything else as before. The one queue of pending and incoming input, and that a
character still to arrive completes it in the same model step, are log 10 (D11). -/
def Obligations.GetcReadsOneCharacter : Prop :=
  ∀ (s : State) (b : Byte) (rest : List Byte),
    s.console.pending ++ s.console.incoming = b :: rest →
    ∃ t, exec .trapGetc s = .next t ∧ t.reg 0 = 0x00#8 ++ b ∧
      t.console.pending ++ t.console.incoming = rest ∧ RegsExcept 0 s t ∧ t.pc = s.pc ∧
      t.cond = s.cond ∧ SameMem s t ∧ t.run = s.run ∧ t.out = s.out ∧ t.hold = .idle

/-- OUT (R142): the low byte of R0 to the console, and nothing else. -/
def Obligations.OutWritesTheLowByte : Prop :=
  ∀ s : State,
    exec .trapOut s = .next { s with out := s.out ++ [(s.reg 0).extractLsb' 0 8] }

/-- PUTS (R143) over a string of `n` non-zero words and a zero word, none of them at 0xFE00: the low
bytes in order to the console, and nothing else. That R0 is kept and addresses wrap is the spec's
decision D14 (log 16). -/
def Obligations.PutsWritesTheString : Prop :=
  ∀ (s : State) (n : Nat),
    (∀ k, k ≤ n → s.reg 0 + BitVec.ofNat 16 k ≠ 0xFE00#16) →
    (∀ k, k < n → s.mem.read (s.reg 0 + BitVec.ofNat 16 k) ≠ 0x0000#16) →
    s.mem.read (s.reg 0 + BitVec.ofNat 16 n) = 0x0000#16 →
    exec .trapPuts s = .next
      { s with out := s.out ++ (wordsFrom s (s.reg 0) n).map (fun w => w.extractLsb' 0 8), hold := .idle }

/-- Whenever the loop of R143 ends, through 0xFE00 or not and however many words it reads, PUTS, gone
on with for as many steps as it takes, ends in that same state. That one model step reads at most
65536 words is the model's choice (log 13); the loop's own reads follow D8 to D11 (log 7 to
log 10), and its address wraps by D14 (log 16). -/
def Obligations.PutsRefinesItsLoop : Prop :=
  ∀ s t : State, s.run = .running → PutsEnds (s.reg 0) s t →
    ∃ u k, exec .trapPuts s = .next u ∧ core.run k u = .next t

/-- IN (R144) with input: the prompt, then the echo, to the console; the first character to R0,
zero-extended. The order and the extension are the spec's decision D12 (log 14); the prompt is free.
The one queue of pending and incoming input, and that a character still to arrive completes it in
the same model step, are log 10 (D11). -/
def Obligations.InPromptsReadsAndEchoes : Prop :=
  ∀ (s : State) (b : Byte) (rest : List Byte),
    s.console.pending ++ s.console.incoming = b :: rest →
    ∃ t, exec .trapIn s = .next t ∧ t.out = s.out ++ Config.inPrompt ++ [b] ∧ t.reg 0 = 0x00#8 ++ b ∧
      t.console.pending ++ t.console.incoming = rest ∧ RegsExcept 0 s t ∧ t.pc = s.pc ∧
      t.cond = s.cond ∧ SameMem s t ∧ t.run = s.run ∧ t.hold = .idle

/-- GETC and IN with no input wait: `pc` stays past the TRAP, IN's prompt is out, and nothing else
happens until the console has a character; then the instruction completes (R94, R151). That the
wait is a next state with `hold` set is the model's choice (D20, log 12); the order of IN is D12
(log 14). The one queue of pending and incoming input (R61), and that a character still to arrive
ends the wait in the same model step, are log 10 (D11). -/
def Obligations.GetcAndInWaitForInput : Prop :=
  (∀ s : State, s.console.pending = [] → s.console.incoming = [] →
    exec .trapGetc s = .next { s with hold := .getc } ∧
    exec .trapIn s = .next { s with out := s.out ++ Config.inPrompt, hold := .inp }) ∧
  (∀ s : State, s.run = .running → s.hold = .getc ∨ s.hold = .inp →
    (s.console.pending = [] → s.console.incoming = [] → step s = .next s) ∧
    ∀ b rest, s.console.pending ++ s.console.incoming = b :: rest →
      ∃ t, step s = .next t ∧ t.reg 0 = 0x00#8 ++ b ∧
        t.console.pending ++ t.console.incoming = rest ∧ t.hold = .idle ∧
        (s.hold = .getc → t.out = s.out) ∧ (s.hold = .inp → t.out = s.out ++ [b]) ∧
        RegsExcept 0 s t ∧ t.pc = s.pc ∧ t.cond = s.cond ∧ SameMem s t ∧ t.run = s.run)

/-- PUTSP (R145) over a string of `n` words with no zero byte, none at 0xFE00, then a word with a zero
low byte or a zero high byte: the bytes, low before high, up to the first zero byte, and nothing
else. The order and the terminator are the spec's decisions D14, D15 (log 16, log 17). -/
def Obligations.PutspWritesThePackedString : Prop :=
  ∀ (s : State) (n : Nat),
    let last : Word := s.mem.read (s.reg 0 + BitVec.ofNat 16 n)
    let body : List Byte :=
      (wordsFrom s (s.reg 0) n).flatMap (fun w => [w.extractLsb' 0 8, w.extractLsb' 8 8])
    (∀ k, k ≤ n → s.reg 0 + BitVec.ofNat 16 k ≠ 0xFE00#16) →
    (∀ k, k < n → (s.mem.read (s.reg 0 + BitVec.ofNat 16 k)).extractLsb' 0 8 ≠ 0x00#8 ∧
      (s.mem.read (s.reg 0 + BitVec.ofNat 16 k)).extractLsb' 8 8 ≠ 0x00#8) →
    (last.extractLsb' 0 8 = 0x00#8 →
      exec .trapPutsp s = .next { s with out := s.out ++ body, hold := .idle }) ∧
    (last.extractLsb' 0 8 ≠ 0x00#8 → last.extractLsb' 8 8 = 0x00#8 →
      exec .trapPutsp s = .next
        { s with out := s.out ++ body ++ [last.extractLsb' 0 8], hold := .idle })

/-- PUTSP completes in one step in every state, since a status read at 0xFE00 answers a word whose low
byte is zero (R43, R145). It rests on the decisions D8, D9, D15 (log 7, log 9, log 17); the unchanged
registers, and the wrap that lets every string reach 0xFE00, are D14 (log 16), and that one model step
reads up to a whole lap of memory is log 13. -/
def Obligations.PutspAlwaysCompletes : Prop :=
  ∀ s : State, ∃ t, exec .trapPutsp s = .next t ∧ t.hold = .idle ∧ t.run = s.run ∧
    SameRegs s t ∧ t.pc = s.pc ∧ t.cond = s.cond ∧ MemExcept 0xFE02#16 s t ∧ s.out <+: t.out

/-- HALT (R146): the notice to the console, then `Halted`; nothing else. That the notice goes to the
console is the spec's decision D13 (log 15); its bytes are free. -/
def Obligations.HaltWritesItsNoticeAndStops : Prop :=
  ∀ s : State,
    exec .trapHalt s = .next { s with out := s.out ++ Config.haltNotice, run := .halted }

/-- RTI and RES (R148, R149, R163): the fault, with the whole instruction word as its reason, and no
other change. The payload is the spec's decision D16 (log 18), the opcode numbers D1 (log 3). -/
def Obligations.IllegalOpcodesFault : Prop :=
  (∀ (low12 : BitVec 12) (s : State),
    exec (.rti low12) s = .next { s with run := .faulted (.illegalOpcode (0x8#4 ++ low12)) } ∧
    exec (.res low12) s = .next { s with run := .faulted (.illegalOpcode (0xD#4 ++ low12)) }) ∧
  ∀ (w : Word) (s : State), w.extractLsb' 12 4 = 0x8#4 ∨ w.extractLsb' 12 4 = 0xD#4 →
    exec (decode w) s = .next { s with run := .faulted (.illegalOpcode w) }

/-- TRAP with an unrecognised vector (R147, R163): the fault, with the whole instruction word as its
reason, and no other change. The payload is the spec's decision D16 (log 18), the opcode number D1
(log 3), the ignored bits D4 (log 5). -/
def Obligations.UnrecognisedVectorsFault : Prop :=
  (∀ (hi4 : BitVec 4) (vec : Byte) (s : State),
    let t : State := { s with run := .faulted (.illegalTrapVector (0xF#4 ++ hi4 ++ vec)) }
    exec (.trapVec00To1F hi4 vec) s = .next t ∧ exec (.trapVec26To27 hi4 vec) s = .next t ∧
    exec (.trapVec28To2F hi4 vec) s = .next t ∧ exec (.trapVec30To3F hi4 vec) s = .next t ∧
    exec (.trapVec40To7F hi4 vec) s = .next t ∧ exec (.trapVec80ToFF hi4 vec) s = .next t) ∧
  ∀ (w : Word) (s : State), w.extractLsb' 12 4 = 0xF#4 →
    (w.extractLsb' 0 8).toNat < 0x20 ∨ 0x25 < (w.extractLsb' 0 8).toNat →
    exec (decode w) s = .next { s with run := .faulted (.illegalTrapVector w) }

/-! ### The whole machine -/

/-- R28: `cond` is written by exactly seven opcodes, each from the value in its destination register
afterwards, and by reset; every other instruction leaves it. -/
def Obligations.OnlySevenOpcodesWriteTheFlag : Prop :=
  (∀ (i : Instr) (s t : State), exec i s = .next t →
    (flagDest i = none → t.cond = s.cond) ∧
    (∀ dr, flagDest i = some dr → FlagOf (t.reg dr) t.cond)) ∧
  ∀ s : State, s.hostReset.cond = .z

/-- R21, R36: an instruction writes at most the one general register the table of R36 gives it. That
TRAP writes no R7 is the spec's decision D7 (log 11). -/
def Obligations.OnlyTheNamedRegisterIsWritten : Prop :=
  ∀ (i : Instr) (s t : State), exec i s = .next t →
    ∀ r, regWritten i ≠ some r → t.reg r = s.reg r

/-- R24: only BR, JMP, JSR and JSRR change the incremented `pc`. That TRAP does not is the spec's
decision D7 (log 11). -/
def Obligations.OnlyControlTransfersChangePc : Prop :=
  ∀ (i : Instr) (s t : State), exec i s = .next t → isControl i = false → t.pc = s.pc

/-- R41, R63: an instruction that is no store changes no cell but 0xFE02, and that one only by
consuming a character. The consuming is the spec's decision D10 (log 8). -/
def Obligations.OnlyStoresAndStagingChangeMemory : Prop :=
  ∀ (i : Instr) (s t : State), exec i s = .next t → isStore i = false →
    MemExcept 0xFE02#16 s t ∧
    (t.console.pending ++ t.console.incoming = s.console.pending ++ s.console.incoming → SameMem s t)

/-- How the run state changes (R30): it is `Running` at first; a step of a ready engine makes it
`Halted` exactly by TRAP HALT and `Faulted` exactly by an illegal opcode or an unrecognised vector. In
an ended run a step answers the same state, which is D17 (log 19); going on with a held GETC, IN, PUTS
or PUTSP leaves it `Running`, the held step being the model's choice (D20, log 12, log 13). -/
def Obligations.RunStateTransitions : Prop :=
  State.reset.run = .running ∧
  ∀ s t : State, step s = .next t →
    (s.run ≠ .running → t = s) ∧
    (Ready s → (t.run = .halted ↔ decode s.fetch.1 = .trapHalt) ∧
      (Failed t ↔
        isIllegalOpcode (decode s.fetch.1) = true ∨ isBadVector (decode s.fetch.1) = true)) ∧
    (s.run = .running → s.hold ≠ .idle → t.run = .running)

/-- R29: `cond` is read by BR alone: for every other instruction a different flag beforehand changes
nothing but the flag afterwards, and that only where the instruction does not write it. -/
def Obligations.OnlyBranchReadsTheFlag : Prop :=
  ∀ (i : Instr) (s : State) (c : Cond), (∀ n z p off9, i ≠ .br n z p off9) →
    ∃ t, exec i s = .next t ∧
      exec i { s with cond := c } =
        .next { t with cond := if flagDest i = none then c else t.cond }

/-- R35, R60: the output trace only grows: no step removes or changes a byte already written. That it
is one append-only list is the spec's decision D11 (log 10). -/
def Obligations.OutputIsAppendOnly : Prop :=
  ∀ s t : State, step s = .next t → s.out <+: t.out

/-- R61: the console's input is taken from the front, in order, and never put back. The one queue is the
spec's decision D11 (log 10). -/
def Obligations.InputIsConsumedInOrder : Prop :=
  ∀ s t : State, step s = .next t →
    ∃ taken, s.console.pending ++ s.console.incoming =
      taken ++ (t.console.pending ++ t.console.incoming)

/-- R43: what is stored at 0xFE00 can never be observed: two states that differ there only go to states
that differ there only, step after step, with the same outcome. It rests on the spec's decisions D8
and D9 (log 7, log 9). -/
def Obligations.StoredStatusCellIsUnobservable : Prop :=
  ∀ s s' : State, KbsrBlind s s' →
    ∃ t t', step s = .next t ∧ step s' = .next t' ∧ KbsrBlind t t' ∧ t'.outcome = t.outcome

/-! ### The host -/

/-- R190: reset, in any state, gives the state of R34 and leaves the console's input. That it may be
applied at any time is the spec's decision D18, R0 to R7 are D6, `out` D11 (log 2, log 20). -/
def Obligations.HostResetRestoresEverythingButInput : Prop :=
  ∀ s : State, s.hostReset.console = s.console ∧ Ready s.hostReset ∧ s.hostReset.pc = 0x3000#16 ∧
    s.hostReset.cond = .z ∧ s.hostReset.out = [] ∧ (∀ r, s.hostReset.reg r = 0x0000#16) ∧
    ∀ a, s.hostReset.mem.read a = 0x0000#16

/-- R196, R197: an image's word `k` stands at `origin + k`; no word is stored outside `origin` to
0xFFFF and the load never wraps; nothing but memory changes. What the host does with an image that
does not fit is open (D21, log 27). -/
def Obligations.ImageLoadsFromItsOrigin : Prop :=
  ∀ (s : State) (origin : Nat) (ws : List Word),
    let t := s.hostLoadImage origin ws
    (∀ a : Word, t.mem.read a =
      if origin ≤ a.toNat then (ws[a.toNat - origin]?).getD (s.mem.read a) else s.mem.read a) ∧
    SameRegs s t ∧ t.pc = s.pc ∧ t.cond = s.cond ∧ SameWorld s t

/-- When the host may do what (R199, the spec's decision D23, log 28): a load is accepted exactly in
the phase `loading`, between reset and the first step or cancel, and is then a plain store; reset is
always accepted and lets the host load again (D18, log 20), and nothing else does; a step of a running
engine that is not abandoned ends the loading; once loading is over no move but a step or reset changes
anything of the state but the console's input. The spec claims nothing of a cancelled run (R166,
R199): that in the phase a cancel leads to, after a cancel before any step too, a load is refused and
the state is kept, is the model's choice (D19, log 21). That the console agent may add input at any
time is D11 (log 10). -/
def Obligations.HostMovesFollowTheBoundary : Prop :=
  ∀ b : Block,
    (∀ a v, b.phase ≠ .loading → b.act (.load a v) = none) ∧
    (∀ a v, b.phase = .loading →
      ∃ b', b.act (.load a v) = some b' ∧ b'.phase = .loading ∧ Stores b.state b'.state a v) ∧
    b.act .reset = some ⟨b.state.hostReset, .loading⟩ ∧
    (b.phase ≠ .abandoned → b.state.run = .running →
      ∃ t, step b.state = .next t ∧ b.act .step = some ⟨t, .started⟩) ∧
    ∀ m b', b.act m = some b' →
      (b.phase ≠ .loading → b'.phase = .loading → m = .reset) ∧
      (b.phase ≠ .loading → m ≠ .reset → m ≠ .step →
        SameRegs b.state b'.state ∧ b'.state.pc = b.state.pc ∧ b'.state.cond = b.state.cond ∧
        SameMem b.state b'.state ∧ b'.state.run = b.state.run ∧ b'.state.out = b.state.out ∧
        b'.state.hold = b.state.hold ∧
        ∃ more, b'.state.console.pending ++ b'.state.console.incoming =
          b.state.console.pending ++ b.state.console.incoming ++ more)

end
end

