-- ==== Sys2Proof/Laws/Memory.lean ====
section
/-!
SUPPORT. The laws of memory: read after write, independence of the cells (R41, R45), the canonical
form, and that it makes equal memories equal data.
-/

namespace Sys2Proof.Laws

open Sys2Proof Sys2Proof.Machine

/-! ### Byte cells -/

/-- Below every listed key nothing is stored. -/
theorem getByte_cons_of_lt {k : Nat} {b : Byte} {m : Memory} {key : Nat} (h : key < k) :
    Memory.getByte ((k, b) :: m) key = 0x00#8 := by
  simp [Memory.getByte, show ¬ k < key by omega, show ¬ k = key by omega]

theorem getByte_dropWhile (m : Memory) (key j : Nat) (h : key < j) :
    Memory.getByte (m.dropWhile (fun c => c.1 ≤ key)) j = m.getByte j := by
  induction m with
  | nil => rfl
  | cons c m ih =>
    obtain ⟨k, b⟩ := c
    by_cases hk : k ≤ key
    · simp [hk, ih, Memory.getByte, show k < j by omega]
    · simp [hk]

theorem getByte_dropWhile_le (m : Memory) (key j : Nat) (h : j ≤ key) :
    Memory.getByte (m.dropWhile (fun c => c.1 ≤ key)) j = 0x00#8 := by
  induction m with
  | nil => rfl
  | cons c m ih =>
    obtain ⟨k, b⟩ := c
    by_cases hk : k ≤ key
    · simp [hk, ih]
    · simp [hk, getByte_cons_of_lt (show j < k by omega)]

/-- Reading a byte after writing one, in every list, canonical or not. -/
theorem getByte_setByte (m : Memory) (key j : Nat) (v : Byte) :
    (m.setByte key v).getByte j = if j = key then v else m.getByte j := by
  induction m with
  | nil =>
    by_cases hv : v = 0x00#8
    · simp [Memory.setByte, hv, Memory.getByte]
    · simp only [Memory.setByte, hv, if_false, Memory.getByte]
      split_ifs <;> first | rfl | omega
  | cons c m ih =>
    obtain ⟨k, b⟩ := c
    rcases Nat.lt_trichotomy k key with h | h | h
    · simp only [Memory.setByte, h, if_true, Memory.getByte, ih]
      split_ifs <;> first | rfl | omega
    · subst h
      by_cases hv : v = 0x00#8
      · subst hv
        simp only [Memory.setByte, Nat.lt_irrefl, if_true, if_false]
        rcases Nat.lt_or_ge k j with hj | hj
        · rw [getByte_dropWhile _ _ _ hj]
          simp [Memory.getByte, hj, show j ≠ k by omega]
        · rw [getByte_dropWhile_le _ _ _ hj]
          simp only [Memory.getByte]
          split_ifs <;> first | rfl | omega
      · simp only [Memory.setByte, Nat.lt_irrefl, if_true, if_false, hv, Memory.getByte]
        split_ifs <;> first | rfl | omega
    · have h1 : ¬ k < key := by omega
      have h2 : ¬ k = key := by omega
      by_cases hv : v = 0x00#8
      · subst hv
        simp only [Memory.setByte, h1, h2, if_true, if_false, Memory.getByte]
        split_ifs <;> first | rfl | omega
      · simp only [Memory.setByte, h1, h2, hv, if_false, Memory.getByte]
        split_ifs <;> first | rfl | omega

/-! ### Words -/

theorem highByte_append_lowByte (v : Word) : highByte v ++ lowByte v = v := by
  apply BitVec.eq_of_getLsbD_eq
  intro i hi
  rw [BitVec.getLsbD_append]
  simp only [highByte, lowByte, BitVec.getLsbD_extractLsb']
  split <;> rename_i h
  · simp [h]
  · simp [show 8 + (i - 8) = i by omega, show i - 8 < 8 by omega]

/-- A cell reads as what was written to it last; every other cell is untouched (R41, R45). -/
@[simp] theorem read_write (m : Memory) (a b v : Word) :
    (m.write a v).read b = if b = a then v else m.read b := by
  simp only [Memory.read, Memory.write, getByte_setByte]
  by_cases h : b = a
  · subst h
    simpa using highByte_append_lowByte v
  · have : b.toNat ≠ a.toNat := fun e => h (BitVec.eq_of_toNat_eq e)
    simp [h, show ¬ (2 * b.toNat = 2 * a.toNat) by omega,
      show ¬ (2 * b.toNat = 2 * a.toNat + 1) by omega,
      show ¬ (2 * b.toNat + 1 = 2 * a.toNat) by omega]

/-- Reset leaves 0x0000 in every cell (R34). -/
@[simp] theorem read_nil (a : Word) : Memory.read [] a = 0x0000#16 := by
  simp only [Memory.read, Memory.getByte]
  decide

/-! ### The canonical form -/

theorem wf_nil : Memory.wf [] := by simp [Memory.wf]

theorem mem_setByte {m : Memory} {key : Nat} {v : Byte} {c : Host.Cell}
    (h : c ∈ m.setByte key v) : c ∈ m ∨ (c = (key, v) ∧ v ≠ 0x00#8) := by
  induction m with
  | nil =>
    simp only [Memory.setByte] at h
    split at h <;> simp_all
  | cons d m ih =>
    obtain ⟨k, b⟩ := d
    simp only [Memory.setByte] at h
    split_ifs at h
    · rcases List.mem_cons.1 h with h | h
      · exact .inl (List.mem_cons.2 (.inl h))
      · exact (ih h).imp (List.mem_cons_of_mem _) id
    · exact .inl (List.mem_cons_of_mem _ ((List.dropWhile_sublist _).subset h))
    · rcases List.mem_cons.1 h with h | h
      · exact .inr ⟨h, by assumption⟩
      · exact .inl (List.mem_cons_of_mem _ h)
    · exact .inl h
    · rcases List.mem_cons.1 h with h | h
      · exact .inr ⟨h, by assumption⟩
      · exact .inl h

theorem pairwise_setByte {m : Memory} {key : Nat} {v : Byte}
    (h : m.Pairwise (fun c d => c.1 < d.1)) :
    (m.setByte key v).Pairwise (fun c d => c.1 < d.1) := by
  induction m with
  | nil =>
    simp only [Memory.setByte]
    split <;> simp
  | cons d m ih =>
    obtain ⟨k, b⟩ := d
    obtain ⟨hk, hm⟩ := List.pairwise_cons.1 h
    simp only [Memory.setByte]
    split_ifs with h1 h2 h3 h4
    · refine List.pairwise_cons.2 ⟨fun c hc => ?_, ih hm⟩
      rcases mem_setByte hc with hc | ⟨rfl, -⟩
      · exact hk c hc
      · exact h1
    · exact hm.sublist (List.dropWhile_sublist _)
    · subst h2
      exact List.pairwise_cons.2 ⟨hk, hm⟩
    · exact h
    · refine List.pairwise_cons.2 ⟨fun c hc => ?_, h⟩
      have hkey : key < k := by omega
      rcases List.mem_cons.1 hc with rfl | hc
      · exact hkey
      · exact Nat.lt_trans hkey (hk c hc)

/-- Setting a byte inside the address space keeps the canonical form. -/
theorem wf_setByte {m : Memory} (h : m.wf) {key : Nat} (hk : key < 131072) (v : Byte) :
    (m.setByte key v).wf := by
  refine ⟨pairwise_setByte h.1, fun c hc => ?_⟩
  rcases mem_setByte hc with hc | ⟨rfl, hv⟩
  · exact h.2 c hc
  · exact ⟨hk, hv⟩

/-- Every store keeps the canonical form. -/
theorem wf_write {m : Memory} (h : m.wf) (a v : Word) : (m.write a v).wf := by
  have := a.isLt
  exact wf_setByte (wf_setByte h (by omega) _) (by omega) _

/-- What the canonical form is for: memories that hold the same bytes are equal data. -/
theorem eq_of_getByte {m m' : Memory} (h : m.wf) (h' : m'.wf)
    (e : ∀ k, m.getByte k = m'.getByte k) : m = m' := by
  induction m generalizing m' with
  | nil =>
    cases m' with
    | nil => rfl
    | cons d m' =>
      have := e d.1
      simp [Memory.getByte] at this
      exact absurd this.symm (h'.2 d (by simp)).2
  | cons c m ih =>
    cases m' with
    | nil =>
      have := e c.1
      simp [Memory.getByte] at this
      exact absurd this (h.2 c (by simp)).2
    | cons d m' =>
      obtain ⟨k, b⟩ := c
      obtain ⟨k', b'⟩ := d
      have hb := (h.2 (k, b) (by simp)).2
      have hb' := (h'.2 (k', b') (by simp)).2
      have hkk : k = k' := by
        rcases Nat.lt_trichotomy k k' with hlt | heq | hgt
        · have := e k
          rw [getByte_cons_of_lt hlt] at this
          exact absurd (by simpa [Memory.getByte] using this) hb
        · exact heq
        · have := e k'
          rw [getByte_cons_of_lt hgt] at this
          exact absurd (by simpa [Memory.getByte] using this.symm) hb'
      subst hkk
      have hbb : b = b' := by simpa [Memory.getByte] using e k
      subst hbb
      obtain ⟨p1, p2⟩ := h
      obtain ⟨p1', p2'⟩ := h'
      rw [List.pairwise_cons] at p1 p1'
      have below : ∀ (n : Memory), (∀ x ∈ n, k < x.1) → ∀ j, j ≤ k → n.getByte j = 0x00#8 := by
        intro n hn j hj
        cases n with
        | nil => rfl
        | cons x n =>
          obtain ⟨kx, bx⟩ := x
          exact getByte_cons_of_lt (Nat.lt_of_le_of_lt hj (hn (kx, bx) (by simp)))
      have : m = m' := by
        refine ih ⟨p1.2, fun x hx => p2 x (List.mem_cons_of_mem _ hx)⟩
          ⟨p1'.2, fun x hx => p2' x (List.mem_cons_of_mem _ hx)⟩ fun j => ?_
        by_cases hj : j ≤ k
        · rw [below m p1.1 j hj, below m' p1'.1 j hj]
        · have := e j
          simpa [Memory.getByte, show k < j by omega] using this
      rw [this]

end Sys2Proof.Laws
end

