-- ==== Sys2Proof/Laws/State.lean ====
section
/-!
SUPPORT. What each named update does to each field of the state, and reading a register after one.
-/

namespace Sys2Proof.Laws

open Sys2Proof Sys2Proof.Machine

variable (s : State)

@[simp] theorem setReg_regs (i : Reg) (v : Word) : (s.setReg i v).regs = s.regs.set i v := rfl
@[simp] theorem setReg_pc (i : Reg) (v : Word) : (s.setReg i v).pc = s.pc := rfl
@[simp] theorem setReg_cond (i : Reg) (v : Word) : (s.setReg i v).cond = s.cond := rfl
@[simp] theorem setReg_run (i : Reg) (v : Word) : (s.setReg i v).run = s.run := rfl
@[simp] theorem setReg_mem (i : Reg) (v : Word) : (s.setReg i v).mem = s.mem := rfl
@[simp] theorem setReg_out (i : Reg) (v : Word) : (s.setReg i v).out = s.out := rfl
@[simp] theorem setReg_console (i : Reg) (v : Word) : (s.setReg i v).console = s.console := rfl
@[simp] theorem setReg_hold (i : Reg) (v : Word) : (s.setReg i v).hold = s.hold := rfl

@[simp] theorem setCC_regs (v : Word) : (s.setCC v).regs = s.regs := rfl
@[simp] theorem setCC_pc (v : Word) : (s.setCC v).pc = s.pc := rfl
@[simp] theorem setCC_cond (v : Word) : (s.setCC v).cond = ccOf v := rfl
@[simp] theorem setCC_run (v : Word) : (s.setCC v).run = s.run := rfl
@[simp] theorem setCC_mem (v : Word) : (s.setCC v).mem = s.mem := rfl
@[simp] theorem setCC_out (v : Word) : (s.setCC v).out = s.out := rfl
@[simp] theorem setCC_console (v : Word) : (s.setCC v).console = s.console := rfl
@[simp] theorem setCC_hold (v : Word) : (s.setCC v).hold = s.hold := rfl

@[simp] theorem jumpTo_regs (v : Word) : (s.jumpTo v).regs = s.regs := rfl
@[simp] theorem jumpTo_pc (v : Word) : (s.jumpTo v).pc = v := rfl
@[simp] theorem jumpTo_cond (v : Word) : (s.jumpTo v).cond = s.cond := rfl
@[simp] theorem jumpTo_run (v : Word) : (s.jumpTo v).run = s.run := rfl
@[simp] theorem jumpTo_mem (v : Word) : (s.jumpTo v).mem = s.mem := rfl
@[simp] theorem jumpTo_out (v : Word) : (s.jumpTo v).out = s.out := rfl
@[simp] theorem jumpTo_console (v : Word) : (s.jumpTo v).console = s.console := rfl
@[simp] theorem jumpTo_hold (v : Word) : (s.jumpTo v).hold = s.hold := rfl

@[simp] theorem consoleWrite_regs (b : Byte) : (s.consoleWrite b).regs = s.regs := rfl
@[simp] theorem consoleWrite_pc (b : Byte) : (s.consoleWrite b).pc = s.pc := rfl
@[simp] theorem consoleWrite_cond (b : Byte) : (s.consoleWrite b).cond = s.cond := rfl
@[simp] theorem consoleWrite_run (b : Byte) : (s.consoleWrite b).run = s.run := rfl
@[simp] theorem consoleWrite_mem (b : Byte) : (s.consoleWrite b).mem = s.mem := rfl
@[simp] theorem consoleWrite_out (b : Byte) : (s.consoleWrite b).out = s.out ++ [b] := rfl
@[simp] theorem consoleWrite_console (b : Byte) : (s.consoleWrite b).console = s.console := rfl
@[simp] theorem consoleWrite_hold (b : Byte) : (s.consoleWrite b).hold = s.hold := rfl

@[simp] theorem consoleWriteAll_regs (bs : List Byte) : (s.consoleWriteAll bs).regs = s.regs := rfl
@[simp] theorem consoleWriteAll_pc (bs : List Byte) : (s.consoleWriteAll bs).pc = s.pc := rfl
@[simp] theorem consoleWriteAll_cond (bs : List Byte) : (s.consoleWriteAll bs).cond = s.cond := rfl
@[simp] theorem consoleWriteAll_run (bs : List Byte) : (s.consoleWriteAll bs).run = s.run := rfl
@[simp] theorem consoleWriteAll_mem (bs : List Byte) : (s.consoleWriteAll bs).mem = s.mem := rfl
@[simp] theorem consoleWriteAll_out (bs : List Byte) : (s.consoleWriteAll bs).out = s.out ++ bs := rfl
@[simp] theorem consoleWriteAll_console (bs : List Byte) : (s.consoleWriteAll bs).console = s.console := rfl
@[simp] theorem consoleWriteAll_hold (bs : List Byte) : (s.consoleWriteAll bs).hold = s.hold := rfl

@[simp] theorem memWrite_regs (a v : Word) : (s.memWrite a v).regs = s.regs := rfl
@[simp] theorem memWrite_pc (a v : Word) : (s.memWrite a v).pc = s.pc := rfl
@[simp] theorem memWrite_cond (a v : Word) : (s.memWrite a v).cond = s.cond := rfl
@[simp] theorem memWrite_run (a v : Word) : (s.memWrite a v).run = s.run := rfl
@[simp] theorem memWrite_mem (a v : Word) : (s.memWrite a v).mem = s.mem.write a v := rfl
@[simp] theorem memWrite_out (a v : Word) : (s.memWrite a v).out = s.out := rfl
@[simp] theorem memWrite_console (a v : Word) : (s.memWrite a v).console = s.console := rfl
@[simp] theorem memWrite_hold (a v : Word) : (s.memWrite a v).hold = s.hold := rfl

@[simp] theorem raise_regs (reason : FaultReason) : (s.raise reason).regs = s.regs := rfl
@[simp] theorem raise_pc (reason : FaultReason) : (s.raise reason).pc = s.pc := rfl
@[simp] theorem raise_cond (reason : FaultReason) : (s.raise reason).cond = s.cond := rfl
@[simp] theorem raise_run (reason : FaultReason) : (s.raise reason).run = .faulted reason := rfl
@[simp] theorem raise_mem (reason : FaultReason) : (s.raise reason).mem = s.mem := rfl
@[simp] theorem raise_out (reason : FaultReason) : (s.raise reason).out = s.out := rfl
@[simp] theorem raise_console (reason : FaultReason) : (s.raise reason).console = s.console := rfl
@[simp] theorem raise_hold (reason : FaultReason) : (s.raise reason).hold = s.hold := rfl

@[simp] theorem link_regs : (s.link).regs = s.regs.set 7 s.pc := rfl
@[simp] theorem link_pc : (s.link).pc = s.pc := rfl
@[simp] theorem link_cond : (s.link).cond = s.cond := rfl
@[simp] theorem link_run : (s.link).run = s.run := rfl
@[simp] theorem link_mem : (s.link).mem = s.mem := rfl
@[simp] theorem link_out : (s.link).out = s.out := rfl
@[simp] theorem link_console : (s.link).console = s.console := rfl
@[simp] theorem link_hold : (s.link).hold = s.hold := rfl

@[simp] theorem setResult_regs (dr : Reg) (v : Word) : (s.setResult dr v).regs = s.regs.set dr v := rfl
@[simp] theorem setResult_pc (dr : Reg) (v : Word) : (s.setResult dr v).pc = s.pc := rfl
@[simp] theorem setResult_cond (dr : Reg) (v : Word) : (s.setResult dr v).cond = ccOf v := rfl
@[simp] theorem setResult_run (dr : Reg) (v : Word) : (s.setResult dr v).run = s.run := rfl
@[simp] theorem setResult_mem (dr : Reg) (v : Word) : (s.setResult dr v).mem = s.mem := rfl
@[simp] theorem setResult_out (dr : Reg) (v : Word) : (s.setResult dr v).out = s.out := rfl
@[simp] theorem setResult_console (dr : Reg) (v : Word) : (s.setResult dr v).console = s.console := rfl
@[simp] theorem setResult_hold (dr : Reg) (v : Word) : (s.setResult dr v).hold = s.hold := rfl

/-- Writing one register and reading another (R20: no register is hardwired or aliased). -/
@[simp] theorem reg_setReg (i j : Reg) (v : Word) :
    (s.setReg i v).reg j = if i = j then v else s.reg j := by
  simp [State.reg, State.setReg, Vector.get_eq_getElem, Vector.getElem_set, Fin.ext_iff]

/-- A register depends on the register file only. -/
theorem reg_congr {s t : State} (h : t.regs = s.regs) (r : Reg) : t.reg r = s.reg r := by
  simp [State.reg, h]

@[simp] theorem reg_setResult (i j : Reg) (v : Word) :
    (s.setResult i v).reg j = if i = j then v else s.reg j := reg_setReg s i j v

@[simp] theorem reg_link (j : Reg) : s.link.reg j = if 7 = j then s.pc else s.reg j :=
  reg_setReg s 7 j s.pc

@[simp] theorem reg_setCC (j : Reg) (v : Word) : (s.setCC v).reg j = s.reg j := rfl
@[simp] theorem reg_jumpTo (j : Reg) (v : Word) : (s.jumpTo v).reg j = s.reg j := rfl
@[simp] theorem reg_consoleWrite (j : Reg) (b : Byte) : (s.consoleWrite b).reg j = s.reg j := rfl
@[simp] theorem reg_consoleWriteAll (j : Reg) (bs : List Byte) :
    (s.consoleWriteAll bs).reg j = s.reg j := rfl
@[simp] theorem reg_memWrite (j : Reg) (a v : Word) : (s.memWrite a v).reg j = s.reg j := rfl
@[simp] theorem reg_raise (j : Reg) (reason : FaultReason) : (s.raise reason).reg j = s.reg j := rfl

end Sys2Proof.Laws
end

