-- ==== Sys2Proof/Laws/Console.lean ====
section
/-!
SUPPORT. What the console's operations and the engine's one read path can do, each said once.
-/

namespace Sys2Proof.Laws

open Sys2Proof Sys2Proof.Machine

/-! ### The console (R60, R61) -/

/-- Everything a poll can do: the input stays as it is but for the next character becoming pending. -/
theorem poll_cases (c : Console) :
    (c.pending ≠ [] ∧ c.poll = (true, c)) ∨
    (c.pending = [] ∧ c.incoming = [] ∧ c.poll = (false, c)) ∨
    (∃ b rest, c.pending = [] ∧ c.incoming = b :: rest ∧
      (c.poll = (true, { pending := [b], incoming := rest, draws := c.draws + 1 }) ∨
        c.poll = (false, { c with draws := c.draws + 1 }))) := by
  obtain ⟨pending, incoming, draws⟩ := c
  cases pending with
  | cons b rest => exact .inl ⟨by simp, rfl⟩
  | nil =>
    cases incoming with
    | nil => exact .inr (.inl ⟨rfl, rfl, rfl⟩)
    | cons b rest =>
      refine .inr (.inr ⟨b, rest, rfl, rfl, ?_⟩)
      simp only [Console.poll]
      split
      · exact .inl rfl
      · exact .inr rfl

/-- Everything a read can do: take the first character of the input, or wait when there is none. -/
theorem read_cases (c : Console) :
    (c.pending = [] ∧ c.incoming = [] ∧ c.read = none) ∨
    (∃ b c', c.read = some (b, c') ∧
      c.pending ++ c.incoming = b :: (c'.pending ++ c'.incoming) ∧ c'.draws = c.draws) := by
  obtain ⟨pending, incoming, draws⟩ := c
  cases pending with
  | cons b rest => exact .inr ⟨b, _, rfl, rfl, rfl⟩
  | nil =>
    cases incoming with
    | nil => exact .inl ⟨rfl, rfl, rfl⟩
    | cons b rest => exact .inr ⟨b, _, rfl, rfl, rfl⟩

/-! ### The read path (R42, R43, R47) -/

@[simp] theorem memRead_of_ne {s : State} {a : Word} (h : a ≠ kbsr) :
    s.memRead a = (s.mem.read a, s) := by
  simp [State.memRead, h]

theorem memRead_kbsr (s : State) : s.memRead kbsr = s.readKbsr := by
  simp [State.memRead]

/-- Everything a status read can do: answer 0x0000 and leave memory alone, or take the first character
of the input, stage it and answer 0x8000. -/
theorem readKbsr_cases (s : State) :
    (∃ c, s.readKbsr = (0x0000#16, { s with console := c }) ∧
      c.pending = s.console.pending ∧ c.incoming = s.console.incoming ∧ c.pending = []) ∨
    (∃ b c, s.readKbsr = (0x8000#16, { s with console := c, mem := s.mem.write kbdr (zext8 b) }) ∧
      s.console.pending ++ s.console.incoming = b :: (c.pending ++ c.incoming)) := by
  rcases poll_cases s.console with ⟨hp, h⟩ | ⟨hp, hi, h⟩ | ⟨b, rest, hp, hi, h | h⟩
  · obtain ⟨b, rest, e⟩ := List.exists_cons_of_ne_nil hp
    refine .inr ⟨b, { s.console with pending := rest }, ?_, by simp [e]⟩
    simp [State.readKbsr, h, Console.read, e]
  · exact .inl ⟨s.console, by simp [State.readKbsr, h], rfl, rfl, hp⟩
  · refine .inr ⟨b, { pending := [], incoming := rest, draws := s.console.draws + 1 }, ?_, by simp [hp, hi]⟩
    simp [State.readKbsr, h, Console.read]
  · exact .inl ⟨{ s.console with draws := s.console.draws + 1 }, by simp [State.readKbsr, h], rfl, rfl, hp⟩

/-- Everything a read of memory can do. -/
theorem memRead_cases (s : State) (a : Word) :
    (a ≠ kbsr ∧ s.memRead a = (s.mem.read a, s)) ∨
    (a = kbsr ∧ ∃ c, s.memRead a = (0x0000#16, { s with console := c }) ∧
      c.pending = s.console.pending ∧ c.incoming = s.console.incoming ∧ c.pending = []) ∨
    (a = kbsr ∧ ∃ b c,
      s.memRead a = (0x8000#16, { s with console := c, mem := s.mem.write kbdr (zext8 b) }) ∧
      s.console.pending ++ s.console.incoming = b :: (c.pending ++ c.incoming)) := by
  by_cases h : a = kbsr
  · subst h
    rw [memRead_kbsr]
    exact .inr ((readKbsr_cases s).imp (fun h => ⟨rfl, h⟩) fun h => ⟨rfl, h⟩)
  · exact .inl ⟨h, memRead_of_ne h⟩

/-! A read touches the console and cell 0xFE02 only. -/

section
variable (s : State) (a : Word)

@[simp] theorem memRead_regs : (s.memRead a).2.regs = s.regs := by
  rcases memRead_cases s a with ⟨-, e⟩ | ⟨-, c, e, -⟩ | ⟨-, b, c, e, -⟩ <;> rw [e]

@[simp] theorem memRead_pc : (s.memRead a).2.pc = s.pc := by
  rcases memRead_cases s a with ⟨-, e⟩ | ⟨-, c, e, -⟩ | ⟨-, b, c, e, -⟩ <;> rw [e]

@[simp] theorem memRead_cond : (s.memRead a).2.cond = s.cond := by
  rcases memRead_cases s a with ⟨-, e⟩ | ⟨-, c, e, -⟩ | ⟨-, b, c, e, -⟩ <;> rw [e]

@[simp] theorem memRead_run : (s.memRead a).2.run = s.run := by
  rcases memRead_cases s a with ⟨-, e⟩ | ⟨-, c, e, -⟩ | ⟨-, b, c, e, -⟩ <;> rw [e]

@[simp] theorem memRead_out : (s.memRead a).2.out = s.out := by
  rcases memRead_cases s a with ⟨-, e⟩ | ⟨-, c, e, -⟩ | ⟨-, b, c, e, -⟩ <;> rw [e]

@[simp] theorem memRead_hold : (s.memRead a).2.hold = s.hold := by
  rcases memRead_cases s a with ⟨-, e⟩ | ⟨-, c, e, -⟩ | ⟨-, b, c, e, -⟩ <;> rw [e]

@[simp] theorem reg_memRead (r : Reg) : (s.memRead a).2.reg r = s.reg r :=
  reg_congr (memRead_regs s a) r

/-- A read changes no cell but 0xFE02 (R41). -/
theorem memRead_mem {b : Word} (h : b ≠ kbdr) : (s.memRead a).2.mem.read b = s.mem.read b := by
  rcases memRead_cases s a with ⟨-, e⟩ | ⟨-, c, e, -⟩ | ⟨-, b, c, e, -⟩ <;> rw [e]
  simp [h]

/-- A read keeps the canonical form. -/
theorem memRead_wf (h : s.mem.wf) : (s.memRead a).2.mem.wf := by
  rcases memRead_cases s a with ⟨-, e⟩ | ⟨-, c, e, -⟩ | ⟨-, b, c, e, -⟩ <;> rw [e]
  · exact h
  · exact h
  · exact wf_write h _ _

/-- A read takes nothing from the console's input, or its first character, and then it stages it. -/
theorem memRead_input :
    ∃ taken, s.console.pending ++ s.console.incoming =
      taken ++ ((s.memRead a).2.console.pending ++ (s.memRead a).2.console.incoming) ∧
      (taken = [] → (s.memRead a).2.mem = s.mem) := by
  rcases memRead_cases s a with ⟨-, e⟩ | ⟨-, c, e, hp, hi, -⟩ | ⟨-, b, c, e, h⟩ <;> rw [e]
  · exact ⟨[], rfl, fun _ => rfl⟩
  · exact ⟨[], by simp [hp, hi], fun _ => rfl⟩
  · exact ⟨[b], by simpa using h, by simp⟩

end

end Sys2Proof.Laws
end

