-- ==== Sys2Proof/Laws/Decode.lean ====
section
/-!
SUPPORT. How the field placed by the encoder is read back by the decoder: the two operations agree at
the same place and do not meet at disjoint places.
-/

namespace Sys2Proof.Laws

open Sys2Proof

variable {k : Nat}

@[simp] theorem slice_or (a b : Word) (lo len : Nat) :
    slice (a ||| b) lo len = slice a lo len ||| slice b lo len := by
  simp [slice, BitVec.extractLsb'_or]

@[simp] theorem bitAt_or (a b : Word) (j : Nat) : bitAt (a ||| b) j = (bitAt a j || bitAt b j) := by
  simp [bitAt]

/-- A placed field read back where it was placed. -/
@[simp] theorem slice_field_same (v : BitVec k) (lo : Nat) (h : lo + k ≤ 16) : slice (field v lo) lo k = v := by
  apply BitVec.eq_of_getLsbD_eq
  intro i hi
  simp only [slice, field, BitVec.getLsbD_extractLsb', BitVec.getLsbD_shiftLeft, BitVec.getLsbD_setWidth,
    show lo + i < 16 by omega, show ¬ lo + i < lo by omega, show lo + i - lo = i by omega,
    show i < 16 by omega, hi, decide_true, decide_false, Bool.not_false, Bool.true_and]

/-- A placed field is 0 everywhere else. -/
@[simp] theorem slice_field_disjoint (v : BitVec k) (lo lo' len : Nat) (h : lo + k ≤ lo' ∨ lo' + len ≤ lo) :
    slice (field v lo) lo' len = 0#len := by
  apply BitVec.eq_of_getLsbD_eq
  intro i hi
  simp only [slice, field, BitVec.getLsbD_extractLsb', BitVec.getLsbD_shiftLeft, BitVec.getLsbD_setWidth,
    BitVec.getLsbD_zero]
  rcases h with h | h
  · rw [BitVec.getLsbD_of_ge v (lo' + i - lo) (by omega)]
    simp
  · simp [show lo' + i < lo by omega]

theorem bitAt_field (v : BitVec k) (lo j : Nat) (hj : j < 16) (h : lo ≤ j) :
    bitAt (field v lo) j = v.getLsbD (j - lo) := by
  simp [bitAt, field, hj, show ¬ j < lo by omega]

@[simp] theorem bitAt_field_below (v : BitVec k) (lo j : Nat) (h : j < lo) : bitAt (field v lo) j = false := by
  simp [bitAt, field, h]

theorem regAt_eq (w : Word) (lo : Nat) (r : Reg) (h : slice w lo 3 = BitVec.ofFin (w := 3) r) :
    regAt w lo = r := by
  simp [regAt, h]

/-! The same facts for placed registers and bits: with all of these `simp` reads every slice and every
bit of a word built by `encode`. -/

@[simp] theorem slice_bitField_disjoint (b : Bool) (lo lo' len : Nat) (h : lo + 1 ≤ lo' ∨ lo' + len ≤ lo) :
    slice (bitField b lo) lo' len = 0#len := slice_field_disjoint _ _ _ _ h

@[simp] theorem slice_regField_disjoint (r : Reg) (lo lo' len : Nat) (h : lo + 3 ≤ lo' ∨ lo' + len ≤ lo) :
    slice (regField r lo) lo' len = 0#len := slice_field_disjoint _ _ _ _ h

@[simp] theorem slice_regField_same (r : Reg) (lo : Nat) (h : lo + 3 ≤ 16) :
    slice (regField r lo) lo 3 = BitVec.ofFin (w := 3) r := slice_field_same _ _ h

@[simp] theorem bitAt_bitField_same (b : Bool) (lo : Nat) (h : lo < 16) : bitAt (bitField b lo) lo = b := by
  unfold bitField
  rw [bitAt_field _ _ _ h (Nat.le_refl _)]
  cases b <;> simp

@[simp] theorem bitAt_bitField_above (b : Bool) (lo j : Nat) (hj : j < 16) (h : lo < j) :
    bitAt (bitField b lo) j = false := by
  unfold bitField
  rw [bitAt_field _ _ _ hj (by omega), BitVec.getLsbD_of_ge _ _ (by omega)]

@[simp] theorem bitAt_bitField_below (b : Bool) (lo j : Nat) (h : j < lo) : bitAt (bitField b lo) j = false :=
  bitAt_field_below _ _ _ h

@[simp] theorem bitAt_regField_above (r : Reg) (lo j : Nat) (hj : j < 16) (h : lo + 3 ≤ j) :
    bitAt (regField r lo) j = false := by
  unfold regField
  rw [bitAt_field _ _ _ hj (by omega), BitVec.getLsbD_of_ge _ _ (by omega)]

@[simp] theorem bitAt_regField_below (r : Reg) (lo j : Nat) (h : j < lo) : bitAt (regField r lo) j = false :=
  bitAt_field_below _ _ _ h

@[simp] theorem bitAt_field_above (v : BitVec k) (lo j : Nat) (hj : j < 16) (h : lo + k ≤ j) :
    bitAt (field v lo) j = false := by
  rw [bitAt_field _ _ _ hj (by omega), BitVec.getLsbD_of_ge _ _ (by omega)]

/-! ### A word against a row of the opcode table -/

theorem eq_of_bitAt {w v : Word} (h : ∀ k, k < 16 → bitAt w k = bitAt v k) : w = v :=
  BitVec.eq_of_getLsbD_eq h

/-- The bits of an opcode-only mask are the opcode (R71). -/
theorem and_opcodeMask (w : Word) : w &&& 0xF000#16 = field (opcodeOf w) 12 := by
  refine eq_of_bitAt fun k hk => ?_
  simp only [bitAt, field, opcodeOf, slice, BitVec.getLsbD_and, BitVec.getLsbD_shiftLeft,
    BitVec.getLsbD_setWidth, BitVec.getLsbD_extractLsb']
  interval_cases k <;> simp

/-- The bits of the mask of ADD and AND are the opcode and the mode bit (R76). -/
theorem and_modeMask (w : Word) :
    w &&& 0xF020#16 = field (opcodeOf w) 12 ||| bitField (bitAt w 5) 5 := by
  refine eq_of_bitAt fun k hk => ?_
  simp only [bitAt, field, bitField, opcodeOf, slice, BitVec.getLsbD_and, BitVec.getLsbD_or,
    BitVec.getLsbD_shiftLeft, BitVec.getLsbD_setWidth, BitVec.getLsbD_extractLsb', BitVec.getLsbD_ofBool]
  interval_cases k <;> simp

/-- The bits of the mask of JSR and JSRR are the opcode and the mode bit (R76). -/
theorem and_jsrMask (w : Word) :
    w &&& 0xF800#16 = field (opcodeOf w) 12 ||| bitField (bitAt w 11) 11 := by
  refine eq_of_bitAt fun k hk => ?_
  simp only [bitAt, field, bitField, opcodeOf, slice, BitVec.getLsbD_and, BitVec.getLsbD_or,
    BitVec.getLsbD_shiftLeft, BitVec.getLsbD_setWidth, BitVec.getLsbD_extractLsb', BitVec.getLsbD_ofBool]
  interval_cases k <;> simp

/-- The bits of a trap row's mask are the opcode and the masked vector (R84). -/
theorem and_trapMask (w : Word) (m : Byte) :
    w &&& (0xF0#8 ++ m) = field (opcodeOf w) 12 ||| field (slice w 0 8 &&& m) 0 := by
  refine eq_of_bitAt fun k hk => ?_
  simp only [bitAt, field, opcodeOf, slice, BitVec.getLsbD_and, BitVec.getLsbD_or, BitVec.getLsbD_append,
    BitVec.getLsbD_shiftLeft, BitVec.getLsbD_setWidth, BitVec.getLsbD_extractLsb']
  interval_cases k <;> simp

/-- Opcode 1111 outside the six routines: the row is decided by the vector's range (R79, R84). -/
theorem decodeTrap_of_range (hi4 : BitVec 4) (vec : Byte) (h : vec.toNat < 0x20 ∨ 0x25 < vec.toNat) :
    decodeTrap hi4 vec =
      if vec.toNat ≤ 0x1F then .trapVec00To1F hi4 vec
      else if vec.toNat ≤ 0x27 then .trapVec26To27 hi4 vec
      else if vec.toNat ≤ 0x2F then .trapVec28To2F hi4 vec
      else if vec.toNat ≤ 0x3F then .trapVec30To3F hi4 vec
      else if vec.toNat ≤ 0x7F then .trapVec40To7F hi4 vec
      else .trapVec80ToFF hi4 vec := by
  have ne : ∀ n : Nat, 0x20 ≤ n → n ≤ 0x25 → vec ≠ BitVec.ofNat 8 n := by
    rintro n h1 h2 rfl
    simp only [BitVec.toNat_ofNat] at h
    omega
  simp only [decodeTrap, ne 0x20 (by omega) (by omega), ne 0x21 (by omega) (by omega),
    ne 0x22 (by omega) (by omega), ne 0x23 (by omega) (by omega), ne 0x24 (by omega) (by omega),
    ne 0x25 (by omega) (by omega), if_false]

end Sys2Proof.Laws
end

