-- ==== Sys2Proof/Laws/PerInstr.lean ====
section
/-!
SUPPORT. What holds of every instruction as syntax, one lemma per constructor: the word the encoder
gives a well-formed instruction lies in that instruction's row of `spec/opcode_table.json` (R84).
-/

namespace Sys2Proof.Laws.EncodedInItsRow

open Sys2Proof Sys2Proof.Laws

/-- The encoded word matches the row of the opcode table. -/
def Statement (i : Instr) : Prop :=
  i.wellFormed = true → encode i &&& i.row.mask = i.row.value

/-- A vector's row is decided by its masked bits, for each of the six ranges. -/
theorem vec_masked {lo hi : Nat} {m v : Byte} (vec : Byte) (h : vecIn lo hi vec = true)
    (all : ∀ x : Byte, vecIn lo hi x = true → x &&& m = v) : vec &&& m = v := all vec h

theorem br (n z p : Bool) (off9 : BitVec 9) : Statement (.br n z p off9) := by
  intro _
  refine (and_opcodeMask _).trans ?_
  simp [encode, opcodeOf]
  rfl

theorem addReg (dr sr1 sr2 : Reg) : Statement (.addReg dr sr1 sr2) := by
  intro _
  refine (and_modeMask _).trans ?_
  simp [encode, opcodeOf]
  rfl

theorem addImm (dr sr1 : Reg) (imm5 : BitVec 5) : Statement (.addImm dr sr1 imm5) := by
  intro _
  refine (and_modeMask _).trans ?_
  simp [encode, opcodeOf]
  rfl

theorem ld (dr : Reg) (off9 : BitVec 9) : Statement (.ld dr off9) := by
  intro _
  refine (and_opcodeMask _).trans ?_
  simp [encode, opcodeOf]
  rfl

theorem st (sr : Reg) (off9 : BitVec 9) : Statement (.st sr off9) := by
  intro _
  refine (and_opcodeMask _).trans ?_
  simp [encode, opcodeOf]
  rfl

theorem jsrr (baseR : Reg) : Statement (.jsrr baseR) := by
  intro _
  refine (and_jsrMask _).trans ?_
  simp [encode, opcodeOf]
  rfl

theorem jsr (off11 : BitVec 11) : Statement (.jsr off11) := by
  intro _
  refine (and_jsrMask _).trans ?_
  simp [encode, opcodeOf]
  rfl

theorem andReg (dr sr1 sr2 : Reg) : Statement (.andReg dr sr1 sr2) := by
  intro _
  refine (and_modeMask _).trans ?_
  simp [encode, opcodeOf]
  rfl

theorem andImm (dr sr1 : Reg) (imm5 : BitVec 5) : Statement (.andImm dr sr1 imm5) := by
  intro _
  refine (and_modeMask _).trans ?_
  simp [encode, opcodeOf]
  rfl

theorem ldr (dr baseR : Reg) (off6 : BitVec 6) : Statement (.ldr dr baseR off6) := by
  intro _
  refine (and_opcodeMask _).trans ?_
  simp [encode, opcodeOf]
  rfl

theorem str (sr baseR : Reg) (off6 : BitVec 6) : Statement (.str sr baseR off6) := by
  intro _
  refine (and_opcodeMask _).trans ?_
  simp [encode, opcodeOf]
  rfl

theorem rti (low12 : BitVec 12) : Statement (.rti low12) := by
  intro _
  refine (and_opcodeMask _).trans ?_
  simp [encode, opcodeOf]
  rfl

theorem notReg (dr sr : Reg) : Statement (.notReg dr sr) := by
  intro _
  refine (and_opcodeMask _).trans ?_
  simp [encode, opcodeOf]
  rfl

theorem ldi (dr : Reg) (off9 : BitVec 9) : Statement (.ldi dr off9) := by
  intro _
  refine (and_opcodeMask _).trans ?_
  simp [encode, opcodeOf]
  rfl

theorem sti (sr : Reg) (off9 : BitVec 9) : Statement (.sti sr off9) := by
  intro _
  refine (and_opcodeMask _).trans ?_
  simp [encode, opcodeOf]
  rfl

theorem jmp (baseR : Reg) : Statement (.jmp baseR) := by
  intro _
  refine (and_opcodeMask _).trans ?_
  simp [encode, opcodeOf]
  rfl

theorem res (low12 : BitVec 12) : Statement (.res low12) := by
  intro _
  refine (and_opcodeMask _).trans ?_
  simp [encode, opcodeOf]
  rfl

theorem lea (dr : Reg) (off9 : BitVec 9) : Statement (.lea dr off9) := by
  intro _
  refine (and_opcodeMask _).trans ?_
  simp [encode, opcodeOf]
  rfl

theorem trapGetc : Statement (.trapGetc) := by
  intro _
  decide

theorem trapOut : Statement (.trapOut) := by
  intro _
  decide

theorem trapPuts : Statement (.trapPuts) := by
  intro _
  decide

theorem trapIn : Statement (.trapIn) := by
  intro _
  decide

theorem trapPutsp : Statement (.trapPutsp) := by
  intro _
  decide

theorem trapHalt : Statement (.trapHalt) := by
  intro _
  decide

theorem trapVec00To1F (hi4 : BitVec 4) (vec : Byte) : Statement (.trapVec00To1F hi4 vec) := by
  intro h
  refine (and_trapMask _ 0xE0#8).trans ?_
  rw [show slice (encode (.trapVec00To1F hi4 vec)) 0 8 = vec by simp [encode],
    vec_masked vec h (v := Instr.row (.trapVec00To1F 0#4 0#8) |>.value.setWidth 8) (by decide)]
  simp [encode, opcodeOf]
  rfl

theorem trapVec26To27 (hi4 : BitVec 4) (vec : Byte) : Statement (.trapVec26To27 hi4 vec) := by
  intro h
  refine (and_trapMask _ 0xFE#8).trans ?_
  rw [show slice (encode (.trapVec26To27 hi4 vec)) 0 8 = vec by simp [encode],
    vec_masked vec h (v := Instr.row (.trapVec26To27 0#4 0#8) |>.value.setWidth 8) (by decide)]
  simp [encode, opcodeOf]
  rfl

theorem trapVec28To2F (hi4 : BitVec 4) (vec : Byte) : Statement (.trapVec28To2F hi4 vec) := by
  intro h
  refine (and_trapMask _ 0xF8#8).trans ?_
  rw [show slice (encode (.trapVec28To2F hi4 vec)) 0 8 = vec by simp [encode],
    vec_masked vec h (v := Instr.row (.trapVec28To2F 0#4 0#8) |>.value.setWidth 8) (by decide)]
  simp [encode, opcodeOf]
  rfl

theorem trapVec30To3F (hi4 : BitVec 4) (vec : Byte) : Statement (.trapVec30To3F hi4 vec) := by
  intro h
  refine (and_trapMask _ 0xF0#8).trans ?_
  rw [show slice (encode (.trapVec30To3F hi4 vec)) 0 8 = vec by simp [encode],
    vec_masked vec h (v := Instr.row (.trapVec30To3F 0#4 0#8) |>.value.setWidth 8) (by decide)]
  simp [encode, opcodeOf]
  rfl

theorem trapVec40To7F (hi4 : BitVec 4) (vec : Byte) : Statement (.trapVec40To7F hi4 vec) := by
  intro h
  refine (and_trapMask _ 0xC0#8).trans ?_
  rw [show slice (encode (.trapVec40To7F hi4 vec)) 0 8 = vec by simp [encode],
    vec_masked vec h (v := Instr.row (.trapVec40To7F 0#4 0#8) |>.value.setWidth 8) (by decide)]
  simp [encode, opcodeOf]
  rfl

theorem trapVec80ToFF (hi4 : BitVec 4) (vec : Byte) : Statement (.trapVec80ToFF hi4 vec) := by
  intro h
  refine (and_trapMask _ 0x80#8).trans ?_
  rw [show slice (encode (.trapVec80ToFF hi4 vec)) 0 8 = vec by simp [encode],
    vec_masked vec h (v := Instr.row (.trapVec80ToFF 0#4 0#8) |>.value.setWidth 8) (by decide)]
  simp [encode, opcodeOf]
  rfl

end Sys2Proof.Laws.EncodedInItsRow
end

