-- ==== Sys2Proof/Laws/Platform.lean ====
section
/-!
SUPPORT. What the boundary's moves can do, each said once.
-/

namespace Sys2Proof.Laws

open Sys2Proof Sys2Proof.Machine

@[simp] theorem act_reset (b : Block) : b.act .reset = some ⟨b.state.hostReset, .loading⟩ := rfl

@[simp] theorem act_cancel (b : Block) : b.act .cancel = some { b with phase := .abandoned } := rfl

@[simp] theorem act_supply (b : Block) (bs : List Byte) :
    b.act (.supply bs) = some { b with state := b.state.consoleSupply bs } := rfl

@[simp] theorem act_arrive (b : Block) :
    b.act .arrive = some { b with state := b.state.consoleArrive } := rfl

/-- Everything a load can do: be accepted before the first step and store one word (R199). -/
theorem act_load_some (b b' : Block) (a v : Word) :
    b.act (.load a v) = some b' ↔
      b.phase = .loading ∧ b' = { b with state := b.state.memWrite a v } := by
  simp only [Block.act, State.hostLoadWord]
  by_cases h : b.phase = .loading <;> simp [h, eq_comm]

/-- Everything a step asked for can do: run one step, or nothing at all in an ended run (R96, R199). -/
theorem act_step_some (b b' : Block) (h : b.act .step = some b') :
    b.phase ≠ .abandoned ∧
      ((b.state.run = .running ∧ ∃ t, Machine.step b.state = .next t ∧ b' = ⟨t, .started⟩) ∨
        (b.state.run ≠ .running ∧ b' = b)) := by
  simp only [Block.act, Block.step] at h
  split at h
  · cases h
  · rename_i hp
    refine ⟨hp, ?_⟩
    split at h
    · rename_i hr
      cases hs : Machine.step b.state with
      | next t => rw [hs] at h; exact .inl ⟨hr, t, rfl, (Option.some.inj h).symm⟩
      | fault r => rw [hs] at h; cases h
      | refused r => rw [hs] at h; cases h
    · rename_i hr
      exact .inr ⟨hr, (Option.some.inj h).symm⟩

/-- Everything an arrival can do: the input keeps its order, and only the console changes (R61). -/
theorem consoleArrive_frame (s : State) :
    ∃ c, s.consoleArrive = { s with console := c } ∧
      c.pending ++ c.incoming = s.console.pending ++ s.console.incoming := by
  unfold State.consoleArrive
  split
  · exact ⟨s.console, rfl, rfl⟩
  · rename_i b rest h
    exact ⟨_, rfl, by simp [h]⟩

end Sys2Proof.Laws
end

