-- ==== Sys2Proof/Laws/Trap.lean ====
section
/-!
SUPPORT. What the waiting reads and the string loops can do, each said once.
-/

namespace Sys2Proof.Laws

open Sys2Proof Sys2Proof.Machine Sys2Proof.Safety

/-- What every trap routine but HALT keeps, and what it may do to memory, the output and the input:
R150 in one relation. -/
structure RoutineFrame (s t : State) : Prop where
  pc : t.pc = s.pc
  cond : t.cond = s.cond
  run : t.run = s.run
  mem : MemExcept kbdr s t
  wf : s.mem.wf → t.mem.wf
  out : s.out <+: t.out
  input : ∃ taken, s.console.pending ++ s.console.incoming =
    taken ++ (t.console.pending ++ t.console.incoming) ∧ (taken = [] → t.mem = s.mem)

theorem RoutineFrame.refl (s : State) : RoutineFrame s s :=
  ⟨rfl, rfl, rfl, fun _ _ => rfl, id, List.prefix_refl _, [], rfl, fun _ => rfl⟩

theorem RoutineFrame.trans {s t u : State} (h : RoutineFrame s t) (k : RoutineFrame t u) :
    RoutineFrame s u where
  pc := k.pc.trans h.pc
  cond := k.cond.trans h.cond
  run := k.run.trans h.run
  mem b hb := (k.mem b hb).trans (h.mem b hb)
  wf hw := k.wf (h.wf hw)
  out := h.out.trans k.out
  input := by
    obtain ⟨x, hx, ex⟩ := h.input
    obtain ⟨y, hy, ey⟩ := k.input
    refine ⟨x ++ y, by rw [hx, hy, List.append_assoc], fun e => ?_⟩
    obtain ⟨rfl, rfl⟩ := List.append_eq_nil_iff.1 e
    exact (ey rfl).trans (ex rfl)

/-- A read of memory inside a routine. -/
theorem routineFrame_memRead (s : State) (a : Word) : RoutineFrame s (s.memRead a).2 where
  pc := memRead_pc s a
  cond := memRead_cond s a
  run := memRead_run s a
  mem _ hb := memRead_mem s a hb
  wf := memRead_wf s a
  out := by simp
  input := memRead_input s a

theorem routineFrame_consoleWrite (s : State) (b : Byte) : RoutineFrame s (s.consoleWrite b) where
  pc := rfl
  cond := rfl
  run := rfl
  mem _ _ := rfl
  wf := id
  out := List.prefix_append _ _
  input := ⟨[], rfl, fun _ => rfl⟩

theorem routineFrame_hold (s : State) (h : Hold) : RoutineFrame s { s with hold := h } where
  pc := rfl
  cond := rfl
  run := rfl
  mem _ _ := rfl
  wf := id
  out := List.prefix_refl _
  input := ⟨[], rfl, fun _ => rfl⟩

/-- PUTS: R0 to R7 are kept too (D14). -/
theorem putsLoop_frame (n : Nat) (a : Word) (s : State) :
    RoutineFrame s (putsLoop n a s) ∧ (putsLoop n a s).regs = s.regs := by
  induction n generalizing a s with
  | zero => exact ⟨routineFrame_hold _ _, rfl⟩
  | succ n ih =>
    simp only [putsLoop]
    split
    · exact ⟨(routineFrame_memRead s a).trans (routineFrame_hold _ _), memRead_regs s a⟩
    · obtain ⟨f, g⟩ := ih (a + 1#16) ((s.memRead a).2.consoleWrite (lowByte (s.memRead a).1))
      exact ⟨((routineFrame_memRead s a).trans (routineFrame_consoleWrite _ _)).trans f, by simp [g]⟩

/-- PUTSP: R0 to R7 are kept too (D14). -/
theorem putspLoop_frame (n : Nat) (a : Word) (s : State) :
    RoutineFrame s (putspLoop n a s) ∧ (putspLoop n a s).regs = s.regs := by
  induction n generalizing a s with
  | zero => exact ⟨routineFrame_hold _ _, rfl⟩
  | succ n ih =>
    have r := routineFrame_memRead s a
    simp only [putspLoop]
    split
    · exact ⟨r.trans (routineFrame_hold _ _), memRead_regs s a⟩
    · have w := r.trans (routineFrame_consoleWrite _ (lowByte (s.memRead a).1))
      split
      · exact ⟨w.trans (routineFrame_hold _ _), by simp⟩
      · obtain ⟨f, g⟩ := ih (a + 1#16)
          (((s.memRead a).2.consoleWrite (lowByte (s.memRead a).1)).consoleWrite
            (highByte (s.memRead a).1))
        exact ⟨(w.trans (routineFrame_consoleWrite _ _)).trans f, by simp [g]⟩

/-- Everything GETC's read can do. -/
theorem getcRead_cases (s : State) :
    (s.console.pending = [] ∧ s.console.incoming = [] ∧ s.getcRead = { s with hold := .getc }) ∨
    (∃ b c, s.getcRead = { s with console := c, hold := .idle }.setReg 0 (zext8 b) ∧
      s.console.pending ++ s.console.incoming = b :: (c.pending ++ c.incoming)) := by
  rcases read_cases s.console with ⟨hp, hi, h⟩ | ⟨b, c, h, e, -⟩
  · exact .inl ⟨hp, hi, by simp [State.getcRead, h]⟩
  · exact .inr ⟨b, c, by simp [State.getcRead, h], e⟩

/-- Everything IN's read can do. -/
theorem inRead_cases (s : State) :
    (s.console.pending = [] ∧ s.console.incoming = [] ∧ s.inRead = { s with hold := .inp }) ∨
    (∃ b c, s.inRead = ({ s with console := c, hold := .idle }.consoleWrite b).setReg 0 (zext8 b) ∧
      s.console.pending ++ s.console.incoming = b :: (c.pending ++ c.incoming)) := by
  rcases read_cases s.console with ⟨hp, hi, h⟩ | ⟨b, c, h, e, -⟩
  · exact .inl ⟨hp, hi, by simp [State.inRead, h]⟩
  · exact .inr ⟨b, c, by simp [State.inRead, h], e⟩

/-- A character taken by a routine leaves memory alone. -/
theorem routineFrame_getcRead (s : State) :
    RoutineFrame s s.getcRead ∧ ∀ r, r ≠ 0 → s.getcRead.reg r = s.reg r := by
  rcases getcRead_cases s with ⟨-, -, e⟩ | ⟨b, c, e, h⟩ <;> rw [e]
  · exact ⟨routineFrame_hold _ _, fun _ _ => rfl⟩
  · exact ⟨⟨rfl, rfl, rfl, fun _ _ => rfl, id, List.prefix_refl _, [b], by simpa using h,
      fun _ => rfl⟩, fun r hr => by simp [hr.symm]; rfl⟩

theorem routineFrame_inRead (s : State) :
    RoutineFrame s s.inRead ∧ ∀ r, r ≠ 0 → s.inRead.reg r = s.reg r := by
  rcases inRead_cases s with ⟨-, -, e⟩ | ⟨b, c, e, h⟩ <;> rw [e]
  · exact ⟨routineFrame_hold _ _, fun _ _ => rfl⟩
  · exact ⟨⟨rfl, rfl, rfl, fun _ _ => rfl, id, List.prefix_append _ _, [b], by simpa using h,
      fun _ => rfl⟩, fun r hr => by simp [hr.symm]; rfl⟩

end Sys2Proof.Laws
end

