-- ==== Sys2Proof/Tests/Slice0.lean ====
section
/-!
SUPPORT. The model's own tests. Expected results come from the spec: words are written out from its
encodings (R72 to R76) and results are those of `95_test_vectors.md`, whose section each test names.
The last part gives every statement with hypotheses a witness that meets them.
-/

namespace Sys2Proof.Tests

open Sys2Proof Sys2Proof.Machine Sys2Proof.Safety

/-! ### Building states -/

/-- The start state of `95_test_vectors.md`: reset, with `ir` at 0x3000, some registers, some cells and
a flag. -/
def start (ir : Word) (regs : List (Reg × Word)) (cells : List (Word × Word)) (c : Cond) : State :=
  let s := cells.foldl (fun s p => s.memWrite p.1 p.2) (State.reset.memWrite 0x3000#16 ir)
  { regs.foldl (fun s p => s.setReg p.1 p.2) s with cond := c }

/-- The same with characters pending on the console. -/
def startWith (ir : Word) (regs : List (Reg × Word)) (cells : List (Word × Word)) (c : Cond)
    (input : List Byte) : State :=
  { start ir regs cells c with console := { pending := input, incoming := [], draws := 0 } }

/-- Some view of the state after one step. -/
def see {α : Type} (view : State → α) (s : State) : Option α :=
  match step s with
  | .next t => some (view t)
  | .fault _ => none
  | .refused _ => none

/-! ### Decoding: words written out from R73, one for every constructor -/

theorem test_decode_br : decode 0b0000_001_111111011#16 = .br false false true 0x1FB#9 := by decide
theorem test_decode_addReg : decode 0b0001_010_000_0_00_001#16 = .addReg 2 0 1 := by decide
theorem test_decode_addImm : decode 0b0001_011_001_1_11011#16 = .addImm 3 1 0x1B#5 := by decide
theorem test_decode_ld : decode 0b0010_001_000001000#16 = .ld 1 8#9 := by decide
theorem test_decode_st : decode 0b0011_111_000000000#16 = .st 7 0#9 := by decide
theorem test_decode_jsrr : decode 0b0100_0_00_011_000000#16 = .jsrr 3 := by decide
theorem test_decode_jsr : decode 0b0100_1_10000000000#16 = .jsr 0x400#11 := by decide
theorem test_decode_andReg : decode 0b0101_010_000_0_00_001#16 = .andReg 2 0 1 := by decide
theorem test_decode_andImm : decode 0b0101_001_010_1_10000#16 = .andImm 1 2 0x10#5 := by decide
theorem test_decode_ldr : decode 0b0110_001_110_111111#16 = .ldr 1 6 0x3F#6 := by decide
theorem test_decode_str : decode 0b0111_000_110_111111#16 = .str 0 6 0x3F#6 := by decide
theorem test_decode_rti : decode 0b1000_111111111111#16 = .rti 0xFFF#12 := by decide
theorem test_decode_not : decode 0b1001_001_010_111111#16 = .notReg 1 2 := by decide
theorem test_decode_ldi : decode 0b1010_100_000000010#16 = .ldi 4 2#9 := by decide
theorem test_decode_sti : decode 0b1011_000_000000011#16 = .sti 0 3#9 := by decide
theorem test_decode_jmp : decode 0b1100_000_011_000000#16 = .jmp 3 := by decide
theorem test_decode_ret : decode 0b1100_000_111_000000#16 = .jmp 7 := by decide
theorem test_decode_res : decode 0b1101_000000000000#16 = .res 0#12 := by decide
theorem test_decode_lea : decode 0b1110_101_100000000#16 = .lea 5 0x100#9 := by decide
theorem test_decode_routines :
    decode 0b1111_0000_00100000#16 = .trapGetc ∧ decode 0b1111_0000_00100001#16 = .trapOut ∧
    decode 0b1111_0000_00100010#16 = .trapPuts ∧ decode 0b1111_0000_00100011#16 = .trapIn ∧
    decode 0b1111_0000_00100100#16 = .trapPutsp ∧ decode 0b1111_0000_00100101#16 = .trapHalt := by
  decide
theorem test_decode_vectors_low :
    decode 0b1111_0000_00000000#16 = .trapVec00To1F 0#4 0x00#8 ∧
    decode 0b1111_1010_00011111#16 = .trapVec00To1F 0xA#4 0x1F#8 ∧
    decode 0b1111_0000_00100110#16 = .trapVec26To27 0#4 0x26#8 ∧
    decode 0b1111_0000_00100111#16 = .trapVec26To27 0#4 0x27#8 ∧
    decode 0b1111_0000_00101000#16 = .trapVec28To2F 0#4 0x28#8 ∧
    decode 0b1111_0000_00101111#16 = .trapVec28To2F 0#4 0x2F#8 := by decide
theorem test_decode_vectors_high :
    decode 0b1111_0000_00110000#16 = .trapVec30To3F 0#4 0x30#8 ∧
    decode 0b1111_0000_00111111#16 = .trapVec30To3F 0#4 0x3F#8 ∧
    decode 0b1111_0000_01000000#16 = .trapVec40To7F 0#4 0x40#8 ∧
    decode 0b1111_0000_01111111#16 = .trapVec40To7F 0#4 0x7F#8 ∧
    decode 0b1111_0000_10000000#16 = .trapVec80ToFF 0#4 0x80#8 ∧
    decode 0b1111_1111_11111111#16 = .trapVec80ToFF 0xF#4 0xFF#8 := by decide
/-- Unused bits set otherwise (R77; sections 2, 4, 8). -/
theorem test_decode_unused_bits :
    decode 0x1418#16 = .addReg 2 0 0 ∧ decode 0x9280#16 = .notReg 1 2 ∧
    decode 0xCEFF#16 = .jmp 3 ∧ decode 0xF125#16 = .trapHalt ∧ decode 0xFF21#16 = .trapOut := by decide
/-- The encoder, beside the hexadecimal words the spec's listings give. -/
theorem test_encode_listed_words :
    encode (.ldr 3 2 0#6) = 0x6680#16 ∧ encode (.br true true true 0x1FF#9) = 0x0FFF#16 ∧
    encode (.jsr 0x3FF#11) = 0x4BFF#16 ∧ encode (.notReg 1 2) = 0x92BF#16 ∧
    encode (.jsrr 7) = 0x41C0#16 ∧ encode .trapPutsp = 0xF024#16 := by decide
theorem test_table_word : decodeTableWord 16 0xB003 = some (.sti 0 3#9) ∧
    decodeTableWord 17 0xB003 = none := by decide

/-! ### Well-formedness: a term each range check refuses, on both sides of it -/

theorem test_illformed_vec00 : (Instr.trapVec00To1F 0#4 0x20#8).wellFormed = false := by decide
theorem test_illformed_vec26 : (Instr.trapVec26To27 0#4 0x25#8).wellFormed = false ∧
    (Instr.trapVec26To27 0#4 0x28#8).wellFormed = false := by decide
theorem test_illformed_vec28 : (Instr.trapVec28To2F 0#4 0x27#8).wellFormed = false ∧
    (Instr.trapVec28To2F 0#4 0x30#8).wellFormed = false := by decide
theorem test_illformed_vec30 : (Instr.trapVec30To3F 0#4 0x2F#8).wellFormed = false ∧
    (Instr.trapVec30To3F 0#4 0x40#8).wellFormed = false := by decide
theorem test_illformed_vec40 : (Instr.trapVec40To7F 0#4 0x3F#8).wellFormed = false ∧
    (Instr.trapVec40To7F 0#4 0x80#8).wellFormed = false := by decide
theorem test_illformed_vec80 : (Instr.trapVec80ToFF 0#4 0x7F#8).wellFormed = false := by decide

/-! ### One step of each instruction -/

/-- Section 2: signed overflow wraps, no fault. -/
theorem test_add_reg_wraps : see (fun t => (t.reg 2, t.cond, t.pc, t.run))
    (start 0x1401#16 [(0, 0x7FFF#16), (1, 0x0001#16)] [] .p) =
    some (0x8000#16, .n, 0x3001#16, .running) := by decide
/-- Section 2: all three registers the same. -/
theorem test_add_reg_same : see (fun t => (t.reg 0, t.cond))
    (start 0x1000#16 [(0, 0x4000#16)] [] .z) = some (0x8000#16, .n) := by decide
/-- Section 2: -16 from the most negative value wraps. -/
theorem test_add_imm_negative : see (fun t => (t.reg 3, t.cond))
    (start 0x16F0#16 [(3, 0x8000#16)] [] .z) = some (0x7FF0#16, .p) := by decide
/-- Section 2: disjoint bits give zero. -/
theorem test_and_reg : see (fun t => (t.reg 2, t.cond))
    (start 0x5401#16 [(0, 0xAAAA#16), (1, 0x5555#16)] [] .n) = some (0x0000#16, .z) := by decide
/-- Section 2: immediate -16 extends to 0xFFF0. -/
theorem test_and_imm : see (fun t => (t.reg 1, t.cond))
    (start 0x52B0#16 [(2, 0xFFFF#16)] [] .z) = some (0xFFF0#16, .n) := by decide
/-- Section 2. -/
theorem test_not : see (fun t => (t.reg 1, t.cond))
    (start 0x92BF#16 [(2, 0x8000#16)] [] .z) = some (0x7FFF#16, .p) := by decide
/-- Section 4: BRnp with Z set is not taken, BRn with N set goes 256 back. -/
theorem test_br : see (·.pc) (start 0x0BFF#16 [] [] .z) = some 0x3001#16 ∧
    see (·.pc) (start 0x0900#16 [] [] .n) = some 0x2F01#16 := by decide
/-- Section 4: a target below zero wraps. -/
theorem test_br_wraps : see (·.pc)
    { start 0x0000#16 [] [(0x0000#16, 0x0FFE#16)] .z with pc := 0x0000#16 } =
    some 0xFFFF#16 := by decide
/-- Section 4. -/
theorem test_jmp : see (·.pc) (start 0xCEFF#16 [(3, 0x1234#16)] [] .z) = some 0x1234#16 := by decide
/-- Section 4: link and largest backward target; at 0xFFFF both wrap to 0. -/
theorem test_jsr : see (fun t => (t.reg 7, t.pc)) (start 0x4C00#16 [] [] .z) =
    some (0x3001#16, 0x2C01#16) := by decide
theorem test_jsr_wraps : see (fun t => (t.reg 7, t.pc))
    { start 0x0000#16 [(7, 0x5555#16)] [(0xFFFF#16, 0x4800#16)] .z with pc := 0xFFFF#16 } =
    some (0x0000#16, 0x0000#16) := by decide
/-- Section 4. -/
theorem test_jsrr : see (fun t => (t.reg 7, t.pc, t.cond))
    (start 0x40C0#16 [(3, 0x5000#16), (7, 0xAAAA#16)] [] .n) =
    some (0x3001#16, 0x5000#16, .n) := by decide
/-- Section 4: JSRR R7 does not jump (D24). -/
theorem test_jsrr_r7 : see (fun t => (t.reg 7, t.pc)) (start 0x41C0#16 [(7, 0x1234#16)] [] .z) =
    some (0x3001#16, 0x3001#16) := by decide
/-- Section 5: an instruction loads its own word. -/
theorem test_ld : see (fun t => (t.reg 0, t.cond)) (start 0x21FF#16 [] [] .z) =
    some (0x21FF#16, .p) := by decide
/-- Section 1, T4. -/
theorem test_ldi : see (fun t => (t.reg 4, t.cond))
    (start 0xA802#16 [] [(0x3003#16, 0x4000#16), (0x4000#16, 0xFFF9#16)] .z) =
    some (0xFFF9#16, .n) := by decide
/-- Section 7: a ready status read consumes and stages. -/
theorem test_ldi_status :
    see (fun t => (t.reg 0, t.cond, t.mem.read 0xFE02#16, t.console.pending))
      (startWith 0xA001#16 [] [(0x3002#16, 0xFE00#16)] .z [0x61#8]) =
    some (0x8000#16, .n, 0x0061#16, []) := by decide
/-- Section 5: the largest offset, and the sum wraps. -/
theorem test_ldr : see (fun t => (t.reg 1, t.cond))
    (start 0x639F#16 [(6, 0xFFFF#16)] [(0x001E#16, 0x0077#16)] .z) = some (0x0077#16, .p) := by decide
/-- Section 7: the staged word is zero-extended. -/
theorem test_ldr_status : see (fun t => (t.reg 0, t.mem.read 0xFE02#16))
    (startWith 0x6040#16 [(1, 0xFE00#16)] [] .z [0xE9#8]) = some (0x8000#16, 0x00E9#16) := by decide
/-- Section 5: the address, not the content. -/
theorem test_lea : see (fun t => (t.reg 2, t.cond)) (start 0xE408#16 [] [(0x3009#16, 0x8000#16)] .z) =
    some (0x3009#16, .p) := by decide
/-- Section 6. -/
theorem test_st : see (fun t => (t.mem.read 0x3006#16, t.cond))
    (start 0x3005#16 [(0, 0x8002#16)] [] .n) = some (0x8002#16, .n) := by decide
/-- Section 6. -/
theorem test_sti : see (fun t => (t.mem.read 0x4000#16, t.mem.read 0x3004#16))
    (start 0xB003#16 [(0, 0xFFF9#16)] [(0x3004#16, 0x4000#16)] .z) =
    some (0xFFF9#16, 0x4000#16) := by decide
/-- Section 7: a store to the status address is a plain store. -/
theorem test_sti_status : see (fun t => (t.mem.read 0xFE00#16, t.console.pending))
    (startWith 0xB001#16 [(0, 0x7777#16)] [(0x3002#16, 0xFE00#16)] .z [0x61#8]) =
    some (0x7777#16, [0x61#8]) := by decide
/-- Section 6: the address wraps to 0. -/
theorem test_str : see (fun t => t.mem.read 0x0000#16)
    (start 0x7041#16 [(0, 0x00AA#16), (1, 0xFFFF#16)] [] .z) = some 0x00AA#16 := by decide
/-- Section 8: no echo, flags untouched, high byte cleared. -/
theorem test_getc : see (fun t => (t.reg 0, t.cond, t.out))
    (startWith 0xF020#16 [(0, 0xFFFF#16)] [] .n [0x41#8]) = some (0x0041#16, .n, []) := by decide
/-- Section 8: without input the step does not complete and `pc` is past the TRAP. -/
theorem test_getc_waits : see (fun t => (t.hold, t.pc, t.run)) (start 0xF020#16 [] [] .z) =
    some (.getc, 0x3001#16, .running) := by decide
/-- Section 8: high byte of R0 ignored. -/
theorem test_out : see (·.out) (start 0xF021#16 [(0, 0x1241#16)] [] .z) = some [0x41#8] := by decide
/-- Section 8: 0x0100 is no terminator and writes 0x00. -/
theorem test_puts : see (fun t => (t.out, t.reg 0, t.hold)) (start 0xF022#16 [(0, 0x4000#16)]
    [(0x4000#16, 0x0148#16), (0x4001#16, 0x0100#16), (0x4002#16, 0x0000#16)] .z) =
    some ([0x48#8, 0x00#8], 0x4000#16, .idle) := by decide
/-- Section 8: the address wraps 0xFFFF to 0 (D14). -/
theorem test_puts_wraps : see (·.out) (start 0xF022#16 [(0, 0xFFFF#16)]
    [(0xFFFF#16, 0x0041#16), (0x0000#16, 0x0042#16)] .z) = some [0x41#8, 0x42#8] := by decide
/-- Section 8: prompt, read, echo, store; the prompt's bytes are free. -/
theorem test_in : see (fun t => (t.out, t.reg 0)) (startWith 0xF023#16 [] [] .z [0x71#8]) =
    some (Config.inPrompt ++ [0x71#8], 0x0071#16) := by rfl
/-- Section 8: a zero high byte ends it. -/
theorem test_putsp : see (·.out) (start 0xF024#16 [(0, 0x4000#16)]
    [(0x4000#16, 0x6548#16), (0x4001#16, 0x006C#16), (0x4002#16, 0x0021#16)] .z) =
    some [0x48#8, 0x65#8, 0x6C#8] := by decide
/-- Section 8: a zero low byte ends it although the high byte is not zero (D15). -/
theorem test_putsp_low_zero : see (·.out) (start 0xF024#16 [(0, 0x4000#16)]
    [(0x4000#16, 0x4100#16), (0x4001#16, 0x0042#16)] .z) = some [] := by decide
/-- Section 8: the notice's bytes are free. -/
theorem test_halt : see (fun t => (t.out, t.outcome, t.pc)) (start 0xF025#16 [] [] .z) =
    some (Config.haltNotice, .halted, 0x3001#16) := by rfl
/-- Section 9: the low twelve bits stand in the payload; state kept. -/
theorem test_rti : see (fun t => (t.run, t.pc, t.reg 0, t.cond))
    (start 0x8FFF#16 [(0, 0x0001#16)] [] .n) =
    some (.faulted (.illegalOpcode 0x8FFF#16), 0x3001#16, 0x0001#16, .n) := by decide
/-- Section 9. -/
theorem test_res : see (·.outcome) (start 0xDFFF#16 [] [] .z) =
    some (.faulted (.illegalOpcode 0xDFFF#16)) := by decide
/-- Section 8: just below and just above the routines' range, and the last vector. -/
theorem test_bad_vectors :
    see (·.run) (start 0xF01F#16 [] [] .z) = some (.faulted (.illegalTrapVector 0xF01F#16)) ∧
    see (·.run) (start 0xF026#16 [] [] .z) = some (.faulted (.illegalTrapVector 0xF026#16)) ∧
    see (·.run) (start 0xF0FF#16 [] [] .z) = some (.faulted (.illegalTrapVector 0xF0FF#16)) := by decide
/-- The other three ranges (R147), with `ir[11:8]` set. -/
theorem test_bad_vectors_between :
    see (·.run) (start 0xF12F#16 [] [] .z) = some (.faulted (.illegalTrapVector 0xF12F#16)) ∧
    see (·.run) (start 0xFA30#16 [] [] .z) = some (.faulted (.illegalTrapVector 0xFA30#16)) ∧
    see (·.run) (start 0xF540#16 [] [] .z) = some (.faulted (.illegalTrapVector 0xF540#16)) := by decide
/-- R196: the file of Program 1 (section 10) stands from 0x3000 on, most significant byte first. -/
theorem test_image_file :
    (State.reset.hostLoadFile [0x30#8, 0x00#8, 0x50#8, 0x20#8, 0x10#8, 0x25#8, 0xF0#8, 0x25#8]).map
      (fun s => (s.mem.read 0x3000#16, s.mem.read 0x3001#16, s.mem.read 0x3002#16)) =
    some (0x5020#16, 0x1025#16, 0xF025#16) := by decide
/-- R199, R205: a load is refused after the first step, the load pins are ignored there, and a reset
allows loading again. -/
theorem test_load_guard :
    ((Block.initial.act .step).bind (·.act (.load 0x3000#16 0xF025#16))) = none ∧
    ((Block.initial.act .step).map (fun b => (b.loadPins true 0x3000#16 0xF025#16).state.mem)) =
      some [] ∧
    ((((Block.initial.act .step).bind (·.act .reset)).bind (·.act (.load 0x3000#16 0xF025#16))).map
      (fun b => b.state.mem.read 0x3000#16)) = some 0xF025#16 := by decide
/-- R198: the later image overwrites the earlier; with one that cannot be read nothing is started. -/
theorem test_load_files :
    (Block.initial.loadFiles [[0x40#8, 0x00#8, 0x12#8, 0x34#8], [0x40#8, 0x00#8, 0x56#8, 0x78#8]]).map
      (fun b => b.state.mem.read 0x4000#16) = some 0x5678#16 ∧
    Block.initial.loadFiles [[0x40#8, 0x00#8], []] = none := by decide
/-- R95, R151: no outcome is reported while GETC waits, one is after a completed step. -/
theorem test_reported :
    ((Block.act ⟨start 0xF020#16 [] [] .z, .loading⟩ .step).map (·.reported)) = some none ∧
    ((Block.act ⟨start 0x1401#16 [] [] .z, .loading⟩ .step).map (·.reported)) =
      some (some .continue) := by decide
/-- R61: what arrives becomes pending, at the end of what is pending. -/
theorem test_console_arrives :
    ((State.reset.consoleSupply [0x61#8, 0x62#8]).consoleArrive.console.pending,
      (State.reset.consoleSupply [0x61#8, 0x62#8]).consoleArrive.console.incoming) =
    ([0x61#8], [0x62#8]) := by decide

/-! ### Witnesses: what meets the hypotheses of each statement, each clause at a boundary

Statements not named here (both ADD forms, AND, NOT, JMP, JSR, LEA, OUT, HALT and so on) have no
hypotheses. -/

/-- A running engine with the console given by hand. -/
def withConsole (pending incoming : List Byte) : State :=
  { State.reset with console := { pending := pending, incoming := incoming, draws := 0 } }

/-- DecodeEncodeRoundTrip: both ends of every vector range, and extreme operands. -/
theorem witness_round_trip :
    ([.trapVec00To1F 0#4 0x00#8, .trapVec00To1F 15#4 0x1F#8, .trapVec26To27 0#4 0x26#8,
      .trapVec26To27 15#4 0x27#8, .trapVec28To2F 0#4 0x28#8, .trapVec28To2F 0#4 0x2F#8,
      .trapVec30To3F 0#4 0x30#8, .trapVec30To3F 0#4 0x3F#8, .trapVec40To7F 0#4 0x40#8,
      .trapVec40To7F 0#4 0x7F#8, .trapVec80ToFF 0#4 0x80#8, .trapVec80ToFF 15#4 0xFF#8,
      .addReg 7 7 7, .jsr 0x7FF#11] : List Instr).all Instr.wellFormed = true := by decide

/-- DecodeReadsEachField: a word for every opcode and mode clause. -/
theorem witness_decode_clauses :
    ([0x0000, 0x1000, 0x1020, 0x2000, 0x3000, 0x4800, 0x4000, 0x5000, 0x5020, 0x6000, 0x7000, 0x8000,
      0x9000, 0xA000, 0xB000, 0xC000, 0xD000, 0xE000, 0xF000] : List Word).map
      (fun w => ((w.extractLsb' 12 4).toNat, w.getLsbD 11, w.getLsbD 5)) =
    [(0, false, false), (1, false, false), (1, false, true), (2, false, false), (3, false, false),
     (4, true, false), (4, false, false), (5, false, false), (5, false, true), (6, false, false),
     (7, false, false), (8, false, false), (9, false, false), (10, false, false), (11, false, false),
     (12, false, false), (13, false, false), (14, false, false), (15, false, false)] := by decide

/-- DecodeReadsEachField and UnrecognisedVectorsFault: vectors next to the routines' on both sides, and
the six routines' own. -/
theorem witness_vector_clauses :
    ([0xF01F, 0xF020, 0xF021, 0xF022, 0xF023, 0xF024, 0xF025, 0xF026] : List Word).map
      (fun w => ((w.extractLsb' 12 4).toNat, (w.extractLsb' 0 8).toNat)) =
    [(15, 0x1F), (15, 0x20), (15, 0x21), (15, 0x22), (15, 0x23), (15, 0x24), (15, 0x25),
     (15, 0x26)] := by decide

/-- EachWordLiesInExactlyItsRow: a word in an instruction's row that is not its own encoding. -/
theorem witness_row : (0x1418#16 : Word) &&& (Instr.addReg 7 6 5).row.mask =
    (Instr.addReg 7 6 5).row.value := by decide

/-- OnlyUnusedBitsAreIgnored: two different words that agree but for unused bits. -/
theorem witness_unused : (0x1418#16 : Word) ≠ 0x1400#16 ∧
    (0x1418#16 : Word) &&& ~~~ (decode 0x1400#16).unusedBits =
      0x1400#16 &&& ~~~ (decode 0x1400#16).unusedBits := by decide

/-- StepKeepsInvariant: a state with memory listed meets the invariant, one that waits meets it too,
and each has a next state. -/
theorem witness_invariant :
    Inv (start 0x1401#16 [] [(0xFFFF#16, 0x0100#16)] .n) ∧
    Inv { withConsole [] [] with hold := .getc } ∧
    step { withConsole [] [] with hold := .getc } = .next { withConsole [] [] with hold := .getc } :=
  ⟨by decide, by decide, by rfl⟩

/-- SetCCFollowsTheSign: a value of each sign at both ends of its range. -/
theorem witness_signs : (0x8000#16 : Word).toInt < 0 ∧ (0xFFFF#16 : Word).toInt < 0 ∧
    (0x0000#16 : Word).toInt = 0 ∧ 0 < (0x0001#16 : Word).toInt ∧ 0 < (0x7FFF#16 : Word).toInt ∧
    (0x8000#16 : Word).getLsbD 15 = true ∧ (0x7FFF#16 : Word).getLsbD 15 = false := by decide

/-- ExtensionKeepsTheInteger: fields of each width with the sign bit set and clear (section 1, T1). -/
theorem witness_extension :
    (0x10#5).getLsbD 4 = true ∧ (0x0F#5).getLsbD 4 = false ∧ sext 0x10#5 = 0xFFF0#16 ∧
    (0x20#6).getLsbD 5 = true ∧ (0x1F#6).getLsbD 5 = false ∧ sext 0x20#6 = 0xFFE0#16 ∧
    (0x100#9).getLsbD 8 = true ∧ (0x0FF#9).getLsbD 8 = false ∧ sext 0x1FB#9 = 0xFFFB#16 ∧
    (0x400#11).getLsbD 10 = true ∧ (0x3FF#11).getLsbD 10 = false ∧ sext 0x400#11 = 0xFC00#16 := by
  decide

/-- PlainReadHasNoSideEffect, and the plain clause of every statement with `Reads`: the neighbours of
0xFE00 and both ends of memory. -/
theorem witness_plain_addresses :
    ([0xFDFF, 0xFE01, 0xFE02, 0x0000, 0xFFFF] : List Word).all (· ≠ 0xFE00#16) = true := by decide

/-- KeyboardDataIsAPlainCell, the status clauses of `Reads`, PolledCharacterIsTheOneRead,
FetchAtKeyboardStatus: a console with a character pending, one with a character still to come, and
one with none. -/
theorem witness_console :
    (withConsole [0xE9#8] [0x61#8]).console.pending = [0xE9#8] ∧
    (withConsole [] [0x61#8]).console.pending = [] ∧
    (withConsole [] [0x61#8]).console.incoming = [0x61#8] ∧
    (withConsole [] []).console.pending = [] ∧ (withConsole [] []).console.incoming = [] ∧
    ((withConsole [0xE9#8] []).console.poll).1 = true := by decide

/-- The three loads and STI reach 0xFE00 as the address of a read: LD and the pointers of LDI and STI
from `pc` 0xFE00 with offset 0, LDR with offset 0. -/
theorem witness_status_addresses :
    ({ State.reset with pc := 0xFE00#16 } : State).pc + (0#9).signExtend 16 = 0xFE00#16 ∧
    (State.reset.setReg 1 0xFE00#16).reg 1 + (0#6).signExtend 16 = 0xFE00#16 := by decide

/-- StepRunsTheDecodedInstruction, StepOutcomeByInstruction, RunStateTransitions: ready states that
fetch an ADD, a HALT, an RTI and an unrecognised vector. -/
theorem witness_ready :
    ([0x1401, 0xF025, 0x8000, 0xF026] : List Word).map (fun w =>
      let s := start w [] [] .z
      (decide (Ready s ∧ s.pc ≠ 0xFE00#16), decode (s.mem.read s.pc), decode s.fetch.1)) =
    [(true, .addReg 2 0 1, .addReg 2 0 1), (true, .trapHalt, .trapHalt), (true, .rti 0#12, .rti 0#12),
     (true, .trapVec26To27 0#4 0x26#8, .trapVec26To27 0#4 0x26#8)] := by decide

/-- FetchAtKeyboardStatus: ready at 0xFE00 with each of the three consoles. -/
theorem witness_fetch_at_status :
    Ready { withConsole [0x61#8] [] with pc := 0xFE00#16 } ∧
    Ready { withConsole [] [0x61#8] with pc := 0xFE00#16 } ∧
    Ready { withConsole [] [] with pc := 0xFE00#16 } := by decide

/-- EndedRunDoesNotStep and the first clause of RunStateTransitions. -/
theorem witness_ended : ({ State.reset with run := .halted } : State).run ≠ .running ∧
    ({ State.reset with run := .faulted (.illegalOpcode 0xD000#16) } : State).run ≠ .running := by
  decide

/-- PlacedWordRunsNext: a `pc` on each side of the case. -/
theorem witness_placed : State.reset.pc ≠ 0xFE00#16 ∧
    ({ State.reset with pc := 0xFE00#16 } : State).pc = 0xFE00#16 := by decide

/-- AddFormsAgree: section 1, T3. -/
theorem witness_add_forms : (State.reset.setReg 2 0xFFFB#16).reg 2 = (0x1B#5).signExtend 16 := by decide

/-- BranchTakenOnMatchingFlag: taken for each flag, and not taken with no bit or with two others. -/
theorem witness_branch :
    branchTaken true false false .n = true ∧ branchTaken false true false .z = true ∧
    branchTaken false false true .p = true ∧ branchTaken false false false .z = false ∧
    branchTaken true false true .z = false := by decide

/-- JsrrLinksBeforeItReads: a base on each side of the case. -/
theorem witness_jsrr : (6 : Reg) ≠ 7 ∧ (7 : Reg) = 7 := by decide

/-- StoredWordIsExecutedNext: ST with offset 0 (section 6), STR with the base at `pc`, STI through a
pointer to `pc`, each in a ready state past its fetch. -/
theorem witness_stored_next :
    let s := { (State.reset.setReg 1 0x3001#16).memWrite 0x3002#16 0x3001#16 with pc := 0x3001#16 }
    Ready s ∧ s.pc ≠ 0xFE00#16 ∧ s.pc + (0#9).signExtend 16 = s.pc ∧
    s.reg 1 + (0#6).signExtend 16 = s.pc ∧ s.pc + (1#9).signExtend 16 ≠ 0xFE00#16 ∧
    s.mem.read (s.pc + (1#9).signExtend 16) = s.pc := by decide

/-- GetcReadsOneCharacter, InPromptsReadsAndEchoes: input pending, and input still to come. -/
theorem witness_input :
    (withConsole [0x00#8] []).console.pending ++ (withConsole [0x00#8] []).console.incoming = [0x00#8] ∧
    (withConsole [] [0xFF#8]).console.pending ++ (withConsole [] [0xFF#8]).console.incoming =
      [0xFF#8] := by decide

/-- GetcAndInWaitForInput, its second part: both waits, without input and with it. -/
theorem witness_waiting :
    let s := { withConsole [] [] with hold := .getc }
    let u := { withConsole [] [0x41#8] with hold := .inp }
    s.run = .running ∧ s.hold = .getc ∧ s.console.pending = [] ∧ s.console.incoming = [] ∧
    u.run = .running ∧ u.hold = .inp ∧ u.console.pending ++ u.console.incoming = [0x41#8] := by decide

/-- PutsWritesTheString: the empty string, and one of two words that wraps. -/
theorem witness_puts :
    let s := start 0xF022#16 [(0, 0xFFFF#16)] [(0xFFFF#16, 0x0041#16), (0x0000#16, 0x0042#16)] .z
    State.reset.mem.read (State.reset.reg 0 + BitVec.ofNat 16 0) = 0x0000#16 ∧
    (∀ k, k ≤ 2 → s.reg 0 + BitVec.ofNat 16 k ≠ 0xFE00#16) ∧
    (∀ k, k < 2 → s.mem.read (s.reg 0 + BitVec.ofNat 16 k) ≠ 0x0000#16) ∧
    s.mem.read (s.reg 0 + BitVec.ofNat 16 2) = 0x0000#16 := by decide

/-- PutsRefinesItsLoop: the loop ends at once at a zero word, and after a word. -/
theorem witness_puts_ends : State.reset.run = .running ∧
    PutsEnds (State.reset.reg 0) State.reset State.reset ∧
    ∃ t, PutsEnds 0x4000#16 (start 0xF022#16 [] [(0x4000#16, 0x0048#16)] .z) t := by
  refine ⟨rfl, .stop (by decide), _, .more (by decide) (.stop (by decide))⟩

/-- PutspWritesThePackedString: an ending in a zero low byte after one full word, and one in a zero
high byte (section 8). -/
theorem witness_putsp :
    let s := start 0xF024#16 [(0, 0x4000#16)] [(0x4000#16, 0x6548#16), (0x4001#16, 0x4100#16)] .z
    let u := start 0xF024#16 [(0, 0x4000#16)] [(0x4000#16, 0x6548#16), (0x4001#16, 0x006C#16)] .z
    (∀ k, k ≤ 1 → s.reg 0 + BitVec.ofNat 16 k ≠ 0xFE00#16) ∧
    (∀ k, k < 1 → (s.mem.read (s.reg 0 + BitVec.ofNat 16 k)).extractLsb' 0 8 ≠ 0x00#8 ∧
      (s.mem.read (s.reg 0 + BitVec.ofNat 16 k)).extractLsb' 8 8 ≠ 0x00#8) ∧
    (s.mem.read (s.reg 0 + BitVec.ofNat 16 1)).extractLsb' 0 8 = 0x00#8 ∧
    (∀ k, k ≤ 1 → u.reg 0 + BitVec.ofNat 16 k ≠ 0xFE00#16) ∧
    (∀ k, k < 1 → (u.mem.read (u.reg 0 + BitVec.ofNat 16 k)).extractLsb' 0 8 ≠ 0x00#8 ∧
      (u.mem.read (u.reg 0 + BitVec.ofNat 16 k)).extractLsb' 8 8 ≠ 0x00#8) ∧
    (u.mem.read (u.reg 0 + BitVec.ofNat 16 1)).extractLsb' 0 8 ≠ 0x00#8 ∧
    (u.mem.read (u.reg 0 + BitVec.ofNat 16 1)).extractLsb' 8 8 = 0x00#8 := by decide

/-- IllegalOpcodesFault, its words. -/
theorem witness_illegal_opcodes : (0x8FFF#16 : Word).extractLsb' 12 4 = 0x8#4 ∧
    (0xD000#16 : Word).extractLsb' 12 4 = 0xD#4 := by decide

/-- OnlySevenOpcodesWriteTheFlag, OnlyTheNamedRegisterIsWritten, OnlyControlTransfersChangePc,
OnlyStoresAndStagingChangeMemory: `exec` answers next, for an instruction on each side of each case. -/
theorem witness_exec_next :
    (∃ t, exec (.ld 3 0#9) State.reset = .next t ∧ flagDest (.ld 3 0#9) = some 3 ∧
      regWritten (.ld 3 0#9) ≠ some 2 ∧ isControl (.ld 3 0#9) = false ∧ isStore (.ld 3 0#9) = false ∧
      t.console.pending ++ t.console.incoming =
        State.reset.console.pending ++ State.reset.console.incoming) ∧
    (∃ t, exec (.jsr 0#11) State.reset = .next t ∧ flagDest (.jsr 0#11) = none ∧
      regWritten (.jsr 0#11) ≠ some 0) := by
  exact ⟨⟨_, rfl, by decide⟩, ⟨_, rfl, by decide⟩⟩

/-- RunStateTransitions, its last clause: a PUTS that has not completed. -/
theorem witness_held : ({ State.reset with hold := .puts 0x1234#16 } : State).run = .running ∧
    ({ State.reset with hold := .puts 0x1234#16 } : State).hold ≠ .idle := by decide

/-- OnlyBranchReadsTheFlag: an instruction that is no BR. -/
theorem witness_no_branch : ∀ n z p off9, Instr.sti 0 0#9 ≠ .br n z p off9 := by
  intro n z p off9 h
  cases h

/-- OutputIsAppendOnly, InputIsConsumedInOrder: a step that writes and a step that reads. -/
theorem witness_console_steps :
    see (·.out) (start 0xF021#16 [(0, 0x0041#16)] [] .z) = some [0x41#8] ∧
    see (·.console.pending) (startWith 0xF020#16 [] [] .z [0x61#8, 0x62#8]) = some [0x62#8] := by decide

/-- StoredStatusCellIsUnobservable: two states that differ in the stored status cell. -/
theorem witness_kbsr_blind :
    KbsrBlind State.reset (State.reset.memWrite 0xFE00#16 0x1234#16) ∧
    (State.reset.memWrite 0xFE00#16 0x1234#16).mem.read 0xFE00#16 ≠ State.reset.mem.read 0xFE00#16 := by
  refine ⟨⟨rfl, rfl, rfl, ⟨rfl, rfl, rfl, rfl⟩, fun b hb => ?_⟩, by decide⟩
  exact (Laws.read_write _ _ _ _).trans (if_neg hb)

/-- ImageLoadsFromItsOrigin: addresses on both sides of an image at the top of memory. -/
theorem witness_image : 0xFFFF ≤ (0xFFFF#16 : Word).toNat ∧ ¬ 0xFFFF ≤ (0xFFFE#16 : Word).toNat ∧
    (State.reset.hostLoadImage 0xFFFF [0x1111#16, 0x2222#16]).mem.read 0xFFFF#16 = 0x1111#16 ∧
    (State.reset.hostLoadImage 0xFFFF [0x1111#16, 0x2222#16]).mem.read 0x0000#16 = 0x0000#16 := by decide

/-- HostMovesFollowTheBoundary: a block in each phase, running, and moves that are accepted there. -/
theorem witness_boundary :
    Block.initial.phase = .loading ∧ Block.initial.state.run = .running ∧
    (Block.mk State.reset .started).phase ≠ .loading ∧
    (Block.mk State.reset .started).phase ≠ .abandoned ∧
    ((Block.mk State.reset .started).act (.supply [0x61#8])).isSome = true ∧
    ((Block.mk State.reset .started).act .cancel).isSome = true ∧
    ((Block.mk State.reset .abandoned).act .arrive).isSome = true ∧
    ((Block.mk State.reset .abandoned).act .reset).map (·.phase) = some .loading := by decide

end Sys2Proof.Tests
end

section
/-!
Sign and zero extension (R11). Each fact about `sext` holds for a field of any width up to that of a
word, so for each of the spec's widths 5, 6, 9 and 11.
-/

namespace Sys2Proof.Proofs.Extension

open Sys2Proof Sys2Proof.Machine

/-- Both forms of R11's "equivalently", in one equation on the naturals. -/
theorem sext_toNat {k : Nat} (hk : k ≤ 16) (f : BitVec k) :
    (sext f).toNat = f.toNat + if f.getLsbD (k - 1) then 65536 - 2 ^ k else 0 := by
  rw [sext, BitVec.toNat_signExtend, BitVec.toNat_setWidth_of_le hk, BitVec.msb_eq_getLsbD_last]

theorem sext_toNat_of_sign_clear {k : Nat} (hk : k ≤ 16) {f : BitVec k}
    (hf : f.getLsbD (k - 1) = false) : (sext f).toNat = f.toNat := by
  simp [sext_toNat hk, hf]

theorem sext_toNat_of_sign_set {k : Nat} (hk : k ≤ 16) {f : BitVec k}
    (hf : f.getLsbD (k - 1) = true) : (sext f).toNat = f.toNat + 65536 - 2 ^ k := by
  have hpow : 2 ^ k ≤ 65536 := Nat.pow_le_pow_right (n := 2) (by decide) hk
  rw [sext_toNat hk, if_pos hf, ← Nat.add_sub_assoc hpow]

theorem sext_toInt {k : Nat} (hk : k ≤ 16) (f : BitVec k) : (sext f).toInt = f.toInt :=
  BitVec.toInt_signExtend_of_le hk

/-- Bit `j` of the extended field: the field's own bit, or a copy of its sign bit above it. -/
theorem sext_getLsbD {k : Nat} (f : BitVec k) {j : Nat} (hj : j < 16) :
    (sext f).getLsbD j = if j < k then f.getLsbD j else f.getLsbD (k - 1) := by
  rw [sext, BitVec.getLsbD_signExtend, decide_eq_true hj, Bool.true_and,
    BitVec.msb_eq_getLsbD_last]

theorem sext_low_bits {k : Nat} (hk : k ≤ 16) (f : BitVec k) : (sext f).extractLsb' 0 k = f := by
  refine BitVec.eq_of_getLsbD_eq fun j hj => ?_
  simp [sext_getLsbD f (Nat.lt_of_lt_of_le hj hk), hj]

theorem sext_high_bits {k : Nat} (f : BitVec k) {j : Nat} (hkj : k ≤ j) (hj : j < 16) :
    (sext f).getLsbD j = f.getLsbD (k - 1) := by
  rw [sext_getLsbD f hj, if_neg (Nat.not_lt.mpr hkj)]

theorem zext8_eq_append (b : Byte) : zext8 b = 0x00#8 ++ b :=
  BitVec.setWidth_eq_append (by decide)

/-- Settles O10: the widths R11 names all fit in a word, and each clause holds at every such width. -/
theorem extensionKeepsTheInteger : Obligations.ExtensionKeepsTheInteger := by
  unfold Obligations.ExtensionKeepsTheInteger
  refine ⟨fun k hwidth f => ?_, zext8_eq_append⟩
  have hk : k ≤ 16 := by omega
  exact ⟨sext_toInt hk f, sext_low_bits hk f, fun _ => sext_high_bits f,
    sext_toNat_of_sign_clear hk, sext_toNat_of_sign_set hk⟩

end Sys2Proof.Proofs.Extension
end

section
/-!
What an instruction and a step can do, said once: the shapes of an instruction's next state, and the
three things a step can be. The statements about the whole machine are read off these.
-/

namespace Sys2Proof.Proofs.Shapes

open Sys2Proof Sys2Proof.Machine Sys2Proof.Safety Sys2Proof.Laws

/-- `u` is `s` after some reads of memory, possibly none. -/
structure AfterReads (s u : State) : Prop extends RoutineFrame s u where
  regs : u.regs = s.regs
  hold : u.hold = s.hold

theorem AfterReads.refl (s : State) : AfterReads s s := ⟨.refl s, rfl, rfl⟩

theorem AfterReads.trans {s t u : State} (h : AfterReads s t) (k : AfterReads t u) :
    AfterReads s u :=
  ⟨h.toRoutineFrame.trans k.toRoutineFrame, k.regs.trans h.regs, k.hold.trans h.hold⟩

theorem afterReads_memRead (s : State) (a : Word) : AfterReads s (s.memRead a).2 :=
  ⟨routineFrame_memRead s a, memRead_regs s a, memRead_hold s a⟩

theorem AfterReads.reg {s u : State} (h : AfterReads s u) (r : Reg) : u.reg r = s.reg r :=
  reg_congr h.regs r

theorem routineFrame_consoleWriteAll (s : State) (bs : List Byte) :
    RoutineFrame s (s.consoleWriteAll bs) where
  pc := rfl
  cond := rfl
  run := rfl
  mem _ _ := rfl
  wf := id
  out := List.prefix_append _ _
  input := ⟨[], rfl, fun _ => rfl⟩

/-- The seven shapes of the state an instruction `i` leaves `s` in, each with what it says of `i`. -/
inductive ExecShape (i : Instr) (s : State) : State → Prop where
  | result {u : State} {dr : Reg} {v : Word} (dest : flagDest i = some dr) (reads : AfterReads s u) :
      ExecShape i s (u.setResult dr v)
  | store {u : State} {a v : Word} (kind : isStore i = true) (quiet : flagDest i = none)
      (reads : AfterReads s u) : ExecShape i s (u.memWrite a v)
  | jump {v : Word} (kind : isControl i = true) (quiet : flagDest i = none) :
      ExecShape i s (s.jumpTo v)
  | call {v : Word} (kind : isControl i = true) (quiet : flagDest i = none)
      (links : regWritten i = some 7) : ExecShape i s (s.link.jumpTo v)
  | routine {t : State} (quiet : flagDest i = none) (frame : RoutineFrame s t)
      (regs : ∀ r, regWritten i ≠ some r → t.reg r = s.reg r) : ExecShape i s t
  | halt (kind : i = .trapHalt) :
      ExecShape i s { s.consoleWriteAll Config.haltNotice with run := .halted }
  | fault {reason : FaultReason} (kind : isIllegalOpcode i = true ∨ isBadVector i = true)
      (quiet : flagDest i = none) : ExecShape i s (s.raise reason)

/-- Every instruction has a next state, of one of the seven shapes. -/
theorem exec_shape (i : Instr) (s : State) : ∃ t, exec i s = .next t ∧ ExecShape i s t := by
  have noReads := AfterReads.refl s
  have oneRead := afterReads_memRead s
  cases i with
  | addReg | addImm | andReg | andImm | notReg | lea => exact ⟨_, rfl, .result rfl noReads⟩
  | ld | ldr => exact ⟨_, rfl, .result rfl (oneRead _)⟩
  | ldi => exact ⟨_, rfl, .result rfl ((oneRead _).trans (afterReads_memRead _ _))⟩
  | st | str => exact ⟨_, rfl, .store rfl rfl noReads⟩
  | sti => exact ⟨_, rfl, .store rfl rfl (oneRead _)⟩
  | br n z p off9 =>
    refine ⟨_, rfl, ?_⟩
    split
    · exact .jump rfl rfl
    · exact .jump (v := s.pc) rfl rfl
  | jmp => exact ⟨_, rfl, .jump rfl rfl⟩
  | jsr | jsrr => exact ⟨_, rfl, .call rfl rfl rfl⟩
  | trapGetc =>
    obtain ⟨frame, regs⟩ := routineFrame_getcRead s
    exact ⟨_, rfl, .routine rfl frame fun r h => regs r fun e => h (congrArg some e.symm)⟩
  | trapIn =>
    obtain ⟨frame, regs⟩ := routineFrame_inRead (s.consoleWriteAll Config.inPrompt)
    exact ⟨_, rfl, .routine rfl ((routineFrame_consoleWriteAll s _).trans frame)
      fun r h => regs r fun e => h (congrArg some e.symm)⟩
  | trapOut => exact ⟨_, rfl, .routine rfl (routineFrame_consoleWrite s _) fun _ _ => rfl⟩
  | trapPuts =>
    obtain ⟨frame, regs⟩ := putsLoop_frame lap (s.reg 0) s
    exact ⟨_, rfl, .routine rfl frame fun r _ => reg_congr regs r⟩
  | trapPutsp =>
    obtain ⟨frame, regs⟩ := putspLoop_frame lap (s.reg 0) s
    exact ⟨_, rfl, .routine rfl frame fun r _ => reg_congr regs r⟩
  | trapHalt => exact ⟨_, rfl, .halt rfl⟩
  | rti | res => exact ⟨_, rfl, .fault (.inl rfl) rfl⟩
  | trapVec00To1F | trapVec26To27 | trapVec28To2F | trapVec30To3F | trapVec40To7F | trapVec80ToFF =>
    exact ⟨_, rfl, .fault (.inr rfl) rfl⟩

theorem execShape_of_exec {i : Instr} {s t : State} (h : exec i s = .next t) : ExecShape i s t := by
  obtain ⟨t', h', shape⟩ := exec_shape i s
  obtain rfl : t' = t := Host.Outcome.next.inj (h'.symm.trans h)
  exact shape

/-! ### The parts of a step -/

@[simp] theorem fetch_run (s : State) : s.fetch.2.run = s.run := memRead_run s s.pc
@[simp] theorem fetch_out (s : State) : s.fetch.2.out = s.out := memRead_out s s.pc
@[simp] theorem fetch_hold (s : State) : s.fetch.2.hold = s.hold := memRead_hold s s.pc

theorem fetch_wf {s : State} (h : s.mem.wf) : s.fetch.2.mem.wf := memRead_wf s s.pc h

theorem fetch_ready {s : State} (h : Ready s) : Ready s.fetch.2 := by simpa [Ready] using h

/-- Going on with a held routine keeps what every routine keeps. -/
theorem routineFrame_resume (s : State) : RoutineFrame s s.resume := by
  unfold State.resume
  split
  · exact .refl s
  · exact (routineFrame_getcRead s).1
  · exact (routineFrame_inRead s).1
  · exact (putsLoop_frame lap _ s).1
  · exact (putspLoop_frame lap _ s).1

/-- A step of an ended run changes nothing (R96, D17). -/
theorem step_ended {s : State} (h : s.run ≠ .running) : step s = .next s := by
  unfold step
  split
  · rfl
  · rfl
  · contradiction

/-- A step of a ready engine runs the instruction it fetches (R90). -/
theorem step_ready {s : State} (h : Ready s) : step s = exec (decode s.fetch.1) s.fetch.2 := by
  obtain ⟨hrun, hhold⟩ := h
  simp [step, hrun, hhold]

/-- A step of a running engine that holds an instruction goes on with it (R94). -/
theorem step_held {s : State} (hrun : s.run = .running) (hhold : s.hold ≠ .idle) :
    step s = .next s.resume := by
  simp only [step, hrun]

/-- Everything a step can be. -/
theorem step_cases {s t : State} (h : step s = .next t) :
    (s.run ≠ .running ∧ t = s) ∨
    (Ready s ∧ ExecShape (decode s.fetch.1) s.fetch.2 t) ∨
    (s.run = .running ∧ s.hold ≠ .idle ∧ t = s.resume) := by
  by_cases hrun : s.run = .running
  · by_cases hhold : s.hold = .idle
    · exact .inr (.inl ⟨⟨hrun, hhold⟩, execShape_of_exec (step_ready ⟨hrun, hhold⟩ ▸ h)⟩)
    · rw [step_held hrun hhold] at h
      exact .inr (.inr ⟨hrun, hhold, (Host.Outcome.next.inj h).symm⟩)
  · rw [step_ended hrun] at h
    exact .inl ⟨hrun, (Host.Outcome.next.inj h).symm⟩

end Sys2Proof.Proofs.Shapes
end

section
/-!
What every step keeps: the invariant, the output already written, and how it may change the run state
(R30, R35, R96).
-/

namespace Sys2Proof.Proofs.StepKeeps

open Sys2Proof Sys2Proof.Machine Sys2Proof.Safety Sys2Proof.Laws Sys2Proof.Proofs.Shapes

/-- Only a routine can leave a step under way, and no routine changes the run state. -/
theorem inv_of_execShape {i : Instr} {s t : State} (hwf : s.mem.wf) (hready : Ready s)
    (shape : ExecShape i s t) : Inv t := by
  obtain ⟨hrun, hhold⟩ := hready
  cases shape with
  | result _ reads => exact ⟨reads.wf hwf, fun _ => reads.run.trans hrun⟩
  | store _ _ reads => exact ⟨wf_write (reads.wf hwf) _ _, fun _ => reads.run.trans hrun⟩
  | jump | call => exact ⟨hwf, fun _ => hrun⟩
  | routine _ frame => exact ⟨frame.wf hwf, fun _ => frame.run.trans hrun⟩
  | halt | fault => exact ⟨hwf, fun hheld => absurd hhold hheld⟩

/-- Settles O8: an ended run stays as it is, an instruction keeps the invariant in each of its shapes,
and a held routine keeps the canonical form and the run state. -/
theorem stepKeepsInvariant : Obligations.StepKeepsInvariant := by
  unfold Obligations.StepKeepsInvariant
  intro s t hinv h
  have hwf : s.mem.wf := hinv.1
  rcases step_cases h with ⟨-, rfl⟩ | ⟨hready, shape⟩ | ⟨hrun, -, rfl⟩
  · exact hinv
  · exact inv_of_execShape (fetch_wf hwf) (fetch_ready hready) shape
  · have frame := routineFrame_resume s
    exact ⟨frame.wf hwf, fun _ => frame.run.trans hrun⟩

theorem out_prefix_of_execShape {i : Instr} {s t : State} (shape : ExecShape i s t) :
    s.out <+: t.out := by
  cases shape with
  | result _ reads => exact reads.out
  | store _ _ reads => exact reads.out
  | jump | call | fault => exact List.prefix_refl _
  | routine _ frame => exact frame.out
  | halt => exact List.prefix_append _ _

/-- Settles O55: the fetch writes nothing, and what the instruction or the held routine does can only
add to the trace. -/
theorem outputIsAppendOnly : Obligations.OutputIsAppendOnly := by
  unfold Obligations.OutputIsAppendOnly
  intro s t h
  rcases step_cases h with ⟨-, rfl⟩ | ⟨-, shape⟩ | ⟨-, -, rfl⟩
  · exact List.prefix_refl _
  · simpa using out_prefix_of_execShape shape
  · exact (routineFrame_resume s).out

/-- The ends of a run, by the shape: HALT's, a fault's, or none (R30). -/
theorem run_of_execShape {i : Instr} {s t : State} (shape : ExecShape i s t) :
    t.run = s.run ∨ (i = .trapHalt ∧ t.run = .halted) ∨
    ((isIllegalOpcode i = true ∨ isBadVector i = true) ∧ ∃ reason, t.run = .faulted reason) := by
  cases shape with
  | result _ reads => exact .inl reads.run
  | store _ _ reads => exact .inl reads.run
  | jump | call => exact .inl rfl
  | routine _ frame => exact .inl frame.run
  | halt kind => exact .inr (.inl ⟨kind, rfl⟩)
  | fault kind => exact .inr (.inr ⟨kind, _, rfl⟩)

theorem run_of_exec_trapHalt {s t : State} (h : exec .trapHalt s = .next t) : t.run = .halted := by
  cases h
  rfl

/-- An illegal opcode or an unrecognised vector raises its fault and does nothing else (R163). -/
theorem exec_raises {i : Instr} (s : State)
    (h : isIllegalOpcode i = true ∨ isBadVector i = true) :
    ∃ reason, exec i s = .next (s.raise reason) := by
  cases i with
  | rti | res | trapVec00To1F | trapVec26To27 | trapVec28To2F | trapVec30To3F | trapVec40To7F
  | trapVec80ToFF => exact ⟨_, rfl⟩
  | _ => simp [isIllegalOpcode, isBadVector] at h

theorem failed_of_exec {i : Instr} {s t : State} (h : exec i s = .next t)
    (kind : isIllegalOpcode i = true ∨ isBadVector i = true) : Failed t := by
  obtain ⟨reason, e⟩ := exec_raises s kind
  obtain rfl := Host.Outcome.next.inj (e.symm.trans h)
  exact ⟨reason, rfl⟩

/-- How an instruction run by a running engine ends the run (R30). -/
theorem ends_of_exec {i : Instr} {s t : State} (hrun : s.run = .running)
    (h : exec i s = .next t) :
    (t.run = .halted ↔ i = .trapHalt) ∧
    (Failed t ↔ isIllegalOpcode i = true ∨ isBadVector i = true) := by
  have ends := run_of_execShape (execShape_of_exec h)
  refine ⟨⟨fun e => ?_, ?_⟩, ⟨fun e => ?_, failed_of_exec h⟩⟩
  · rcases ends with e' | ⟨kind, -⟩ | ⟨-, _, e'⟩
    · simp [e', hrun] at e
    · exact kind
    · simp [e'] at e
  · rintro rfl
    exact run_of_exec_trapHalt h
  · rcases ends with e' | ⟨-, e'⟩ | ⟨kind, -⟩
    · simp [Failed, e', hrun] at e
    · simp [Failed, e'] at e
    · exact kind

/-- Settles O53: the three things a step can be have the three effects on the run state. -/
theorem runStateTransitions : Obligations.RunStateTransitions := by
  unfold Obligations.RunStateTransitions
  refine ⟨rfl, fun s t h => ⟨fun hended => ?_, fun hready => ?_, fun hrun hhold => ?_⟩⟩
  · rw [step_ended hended] at h
    exact (Host.Outcome.next.inj h).symm
  · rw [step_ready hready] at h
    exact ends_of_exec (fetch_ready hready).1 h
  · rw [step_held hrun hhold] at h
    obtain rfl := Host.Outcome.next.inj h
    exact (routineFrame_resume s).run.trans hrun

end Sys2Proof.Proofs.StepKeeps
end

section
/-!
The condition flag (R26 to R29): what `SetCC` makes of a value, which instructions write the flag, and
that only BR reads it.
-/

namespace Sys2Proof.Proofs.Flags

open Sys2Proof Sys2Proof.Machine Sys2Proof.Safety Sys2Proof.Laws Sys2Proof.Proofs.Shapes

theorem ccOf_eq_z_iff (v : Word) : ccOf v = .z ↔ v = 0x0000#16 := by
  unfold ccOf
  split_ifs <;> simp_all

theorem ccOf_eq_n_iff (v : Word) : ccOf v = .n ↔ v ≠ 0x0000#16 ∧ v.msb = true := by
  unfold ccOf
  split_ifs <;> simp_all

theorem ccOf_eq_p_iff (v : Word) : ccOf v = .p ↔ v ≠ 0x0000#16 ∧ v.msb = false := by
  unfold ccOf
  split_ifs <;> simp_all

/-- `ccOf` is the flag of the signed integer, bit 15 being its sign (R27). -/
theorem flagOf_ccOf (v : Word) : FlagOf v (ccOf v) := by
  have hsign : v.msb = decide (v.toInt < 0) := BitVec.msb_eq_toInt
  have hzero : v.toInt = 0 ↔ v = 0x0000#16 := BitVec.toInt_inj (y := 0x0000#16)
  refine ⟨fun h => (ccOf_eq_n_iff v).2 ⟨?_, ?_⟩, fun h => (ccOf_eq_z_iff v).2 (hzero.1 h),
    fun h => (ccOf_eq_p_iff v).2 ⟨?_, ?_⟩⟩
  · exact fun e => by have := hzero.2 e; omega
  · simpa [hsign] using h
  · exact fun e => by have := hzero.2 e; omega
  · simpa [hsign] using h.le

/-- Settles O9: the flag `SetCC` writes is `ccOf v`, which depends on nothing but `v`. -/
theorem setCCFollowsTheSign : Obligations.SetCCFollowsTheSign := by
  unfold Obligations.SetCCFollowsTheSign
  intro s v
  have hbit : v.getLsbD 15 = v.msb := (BitVec.msb_eq_getLsbD_last v).symm
  rw [hbit]
  exact ⟨ccOf v, rfl, flagOf_ccOf v, ccOf_eq_z_iff v, ccOf_eq_n_iff v, ccOf_eq_p_iff v⟩

/-- Settles O49: a flag-setting instruction ends in `setResult`, every other shape keeps the flag. -/
theorem onlySevenOpcodesWriteTheFlag : Obligations.OnlySevenOpcodesWriteTheFlag := by
  unfold Obligations.OnlySevenOpcodesWriteTheFlag
  refine ⟨fun i s t h => ?_, fun _ => rfl⟩
  cases execShape_of_exec h with
  | @result u dr v dest reads =>
    refine ⟨fun quiet => by simp [dest] at quiet, fun dr' dest' => ?_⟩
    obtain rfl : dr = dr' := Option.some.inj (dest.symm.trans dest')
    simpa using flagOf_ccOf v
  | store _ quiet reads => exact ⟨fun _ => reads.cond, fun _ dest => by simp [quiet] at dest⟩
  | jump _ quiet | call _ quiet | fault _ quiet =>
    exact ⟨fun _ => rfl, fun _ dest => by simp [quiet] at dest⟩
  | routine quiet frame => exact ⟨fun _ => frame.cond, fun _ dest => by simp [quiet] at dest⟩
  | halt kind => exact ⟨fun _ => rfl, fun _ dest => by simp [kind, flagDest] at dest⟩

/-! ### Nothing but BR reads the flag -/

/-- `s` with another flag. -/
def withCond (s : State) (c : Cond) : State := { s with cond := c }

section
variable (s : State) (c : Cond)

theorem withCond_console : (withCond s c).console = s.console := rfl

theorem consoleWrite_withCond (b : Byte) :
    (withCond s c).consoleWrite b = withCond (s.consoleWrite b) c := rfl

theorem readKbsr_withCond :
    (withCond s c).readKbsr = (s.readKbsr.1, withCond s.readKbsr.2 c) := by
  unfold State.readKbsr
  rw [withCond_console]
  split
  · rfl
  · split <;> rfl

theorem memRead_withCond (a : Word) :
    (withCond s c).memRead a = ((s.memRead a).1, withCond (s.memRead a).2 c) := by
  unfold State.memRead
  split
  · exact readKbsr_withCond s c
  · rfl

theorem getcRead_withCond : (withCond s c).getcRead = withCond s.getcRead c := by
  unfold State.getcRead
  rw [withCond_console]
  split <;> rfl

theorem inRead_withCond : (withCond s c).inRead = withCond s.inRead c := by
  unfold State.inRead
  rw [withCond_console]
  split <;> rfl

theorem putsLoop_withCond (n : Nat) (a : Word) :
    putsLoop n a (withCond s c) = withCond (putsLoop n a s) c := by
  induction n generalizing a s with
  | zero => rfl
  | succ n ih =>
    simp only [putsLoop, memRead_withCond, consoleWrite_withCond]
    split
    · rfl
    · exact ih _ _

theorem putspLoop_withCond (n : Nat) (a : Word) :
    putspLoop n a (withCond s c) = withCond (putspLoop n a s) c := by
  induction n generalizing a s with
  | zero => rfl
  | succ n ih =>
    simp only [putspLoop, memRead_withCond, consoleWrite_withCond]
    split
    · rfl
    · split
      · rfl
      · exact ih _ _

/-- An instruction that writes the flag gives the same outcome whatever the flag was. -/
theorem exec_withCond_of_flagDest {i : Instr} {dr : Reg} (dest : flagDest i = some dr) :
    exec i (withCond s c) = exec i s := by
  cases i with
  | addReg | addImm | andReg | andImm | notReg | lea => rfl
  | ld | ldr =>
    simp only [exec, execLd, execLdr, memRead_withCond]
    rfl
  | ldi =>
    simp only [exec, execLdi, memRead_withCond]
    rfl
  | _ => simp [flagDest] at dest

/-- An instruction that neither writes nor tests the flag carries it along. -/
theorem exec_withCond_of_quiet {i : Instr} {t : State} (quiet : flagDest i = none)
    (notBr : ∀ n z p off9, i ≠ .br n z p off9) (h : exec i s = .next t) :
    exec i (withCond s c) = .next (withCond t c) := by
  cases i with
  | br n z p off9 => exact absurd rfl (notBr n z p off9)
  | trapGetc => cases h; exact congrArg _ (getcRead_withCond s c)
  | trapIn => cases h; exact congrArg _ (inRead_withCond (s.consoleWriteAll Config.inPrompt) c)
  | trapPuts => cases h; exact congrArg _ (putsLoop_withCond s c lap (s.reg 0))
  | trapPutsp => cases h; exact congrArg _ (putspLoop_withCond s c lap (s.reg 0))
  | sti sr off9 =>
    cases h
    simp only [exec, execSti, memRead_withCond]
    rfl
  | addReg | addImm | andReg | andImm | notReg | lea | ld | ldr | ldi => simp [flagDest] at quiet
  | _ => cases h; rfl

end

/-- Settles O54: a flag-setting instruction overwrites the flag, every other one but BR carries it. -/
theorem onlyBranchReadsTheFlag : Obligations.OnlyBranchReadsTheFlag := by
  unfold Obligations.OnlyBranchReadsTheFlag
  intro i s c notBr
  obtain ⟨t, h, -⟩ := exec_shape i s
  refine ⟨t, h, ?_⟩
  cases dest : flagDest i with
  | none => exact exec_withCond_of_quiet s c dest notBr h
  | some dr => exact (exec_withCond_of_flagDest s c dest).trans h

end Sys2Proof.Proofs.Flags
end

section
/-!
What an instruction leaves unchanged of the registers and of `pc` (R21, R24, R36), and the state after
reset (R34).
-/

namespace Sys2Proof.Proofs.RegistersAndReset

open Sys2Proof Sys2Proof.Machine Sys2Proof.Safety Sys2Proof.Laws Sys2Proof.Proofs.Shapes

theorem regWritten_of_flagDest {i : Instr} {dr : Reg} (dest : flagDest i = some dr) :
    regWritten i = some dr := by
  cases i with
  | jsr | jsrr | trapGetc | trapIn => simp [flagDest] at dest
  | _ => exact dest

/-- Settles O50: only a result and a link write a register, and each is the one R36 names. -/
theorem onlyTheNamedRegisterIsWritten : Obligations.OnlyTheNamedRegisterIsWritten := by
  unfold Obligations.OnlyTheNamedRegisterIsWritten
  intro i s t h r hr
  cases execShape_of_exec h with
  | @result u dr v dest reads =>
    have hdr : dr ≠ r := fun e => hr (e ▸ regWritten_of_flagDest dest)
    simpa [hdr] using reads.reg r
  | store _ _ reads => exact reads.reg r
  | call _ _ links =>
    have h7 : 7 ≠ r := fun e => hr (e ▸ links)
    simp [h7]
  | routine _ _ regs => exact regs r hr
  | jump | halt | fault => rfl

/-- Settles O51: the two shapes that write `pc` are control transfers. -/
theorem onlyControlTransfersChangePc : Obligations.OnlyControlTransfersChangePc := by
  unfold Obligations.OnlyControlTransfersChangePc
  intro i s t h plain
  cases execShape_of_exec h with
  | jump kind | call kind => simp [kind] at plain
  | result _ reads => exact reads.pc
  | store _ _ reads => exact reads.pc
  | routine _ frame => exact frame.pc
  | halt | fault => rfl

theorem reset_reg (r : Reg) : State.reset.reg r = 0x0000#16 := by
  simp [State.reg, State.reset, Vector.get_eq_getElem]

/-- Settles O6: each field as `State.reset` writes it, the empty memory reading 0x0000 everywhere. -/
theorem resetValues : Obligations.ResetValues := by
  unfold Obligations.ResetValues
  exact ⟨rfl, rfl, rfl, read_nil, reset_reg, rfl, rfl, rfl, rfl⟩

/-- Settles O7: the empty memory is canonical and a reset engine is running. -/
theorem resetMeetsInvariant : Obligations.ResetMeetsInvariant :=
  ⟨wf_nil, fun _ => rfl⟩

end Sys2Proof.Proofs.RegistersAndReset
end

section
/-!
Reads and stores: the plain cells, and the status read by what the console holds (R42 to R45).
-/

namespace Sys2Proof.Proofs.ReadsAndStores

open Sys2Proof Sys2Proof.Machine Sys2Proof.Safety Sys2Proof.Laws Sys2Proof.Proofs.Shapes

theorem kbdr_ne_kbsr : kbdr ≠ kbsr := by decide

/-- A status read that finds a character pending takes the first one and stages it (R43, D10). -/
theorem readKbsr_of_pending {s : State} {b : Byte} {rest : List Byte}
    (hp : s.console.pending = b :: rest) :
    s.readKbsr = (0x8000#16, { s with
      console := { s.console with pending := rest }, mem := s.mem.write kbdr (zext8 b) }) := by
  have hpoll : s.console.poll = (true, s.console) := by simp [Console.poll, hp]
  have hread : s.console.read = some (b, { s.console with pending := rest }) := by
    simp [Console.read, hp]
  simp [State.readKbsr, hpoll, hread]

/-- A status read with no input at all changes nothing (R43, R61). -/
theorem readKbsr_of_no_input {s : State} (hp : s.console.pending = [])
    (hi : s.console.incoming = []) : s.readKbsr = (0x0000#16, s) := by
  have hpoll : s.console.poll = (false, s.console) := by simp [Console.poll, hp, hi]
  simp [State.readKbsr, hpoll]

/-- A status read with nothing pending finds the next character only if it has arrived by now, and
this is a free answer (R61, D11). -/
theorem readKbsr_of_incoming {s : State} {b : Byte} {rest : List Byte}
    (hp : s.console.pending = []) (hi : s.console.incoming = b :: rest) :
    s.readKbsr = (0x8000#16, { s with
      console := { pending := [], incoming := rest, draws := s.console.draws + 1 }
      mem := s.mem.write kbdr (zext8 b) }) ∨
    s.readKbsr = (0x0000#16, { s with
      console := { s.console with draws := s.console.draws + 1 } }) := by
  by_cases harrived : Config.arrived s.console.draws
  · have hpoll : s.console.poll =
        (true, { pending := [b], incoming := rest, draws := s.console.draws + 1 }) := by
      simp [Console.poll, hp, hi, harrived]
    exact .inl (by simp [State.readKbsr, hpoll, Console.read])
  · have hpoll : s.console.poll =
        (false, { s.console with draws := s.console.draws + 1 }) := by
      simp [Console.poll, hp, hi, harrived]
    exact .inr (by simp [State.readKbsr, hpoll])

/-- What staging a character does to memory is what R43 says of it. -/
theorem staged_write (s : State) (c : Console) (b : Byte) :
    Staged s { s with console := c, mem := s.mem.write kbdr (zext8 b) } 0x8000#16 b := by
  refine ⟨rfl, ?_, fun a ha => ?_⟩
  · exact (read_write _ _ _ _).trans (if_pos rfl)
  · exact (read_write _ _ _ _).trans (if_neg ha)

theorem statusRead_readKbsr (s : State) : StatusRead s s.readKbsr.2 s.readKbsr.1 := by
  refine ⟨fun b rest hp => ?_, fun hp hi => ?_, fun b rest hp hi => ?_⟩
  · rw [readKbsr_of_pending hp]
    exact ⟨staged_write s _ b, rfl, rfl⟩
  · rw [readKbsr_of_no_input hp hi]
    exact ⟨rfl, fun _ => rfl, rfl⟩
  · rcases readKbsr_of_incoming hp hi with e | e <;> rw [e]
    · exact .inl ⟨staged_write s _ b, rfl, rfl⟩
    · exact .inr ⟨rfl, fun _ => rfl, hp, hi⟩

/-- Settles O14: the frame is that of every read; the value is the stored word, or the status read's. -/
theorem everyReadFollowsTheContract : Obligations.EveryReadFollowsTheContract := by
  unfold Obligations.EveryReadFollowsTheContract
  intro s a
  refine ⟨reg_memRead s a, memRead_pc s a, memRead_cond s a, memRead_run s a, memRead_out s a,
    memRead_hold s a, fun ha => ?_, fun ha => ?_⟩
  · rw [memRead_of_ne ha]
    exact ⟨rfl, fun _ => rfl, rfl⟩
  · obtain rfl : a = kbsr := ha
    rw [memRead_kbsr]
    exact statusRead_readKbsr s

/-- Settles O11: the cell is read back, and no other field or cell is written. -/
theorem storeWritesItsCellOnly : Obligations.StoreWritesItsCellOnly := by
  unfold Obligations.StoreWritesItsCellOnly
  intro s a v
  refine ⟨?_, fun b hb => ?_, fun _ => rfl, rfl, rfl, rfl, rfl, rfl, rfl⟩
  · simp
  · simp [hb]

/-- Settles O12: the intercept is at 0xFE00 alone. -/
theorem plainReadHasNoSideEffect : Obligations.PlainReadHasNoSideEffect :=
  fun _ _ ha => memRead_of_ne ha

theorem lowByte_zext8 (b : Byte) : lowByte (zext8 b) = b := by
  refine BitVec.eq_of_getLsbD_eq fun j hj => ?_
  simp [lowByte, zext8, hj, Nat.lt_trans hj]

/-- Settles O13: 0xFE02 is no intercepted address, so each clause is the stored word. -/
theorem keyboardDataIsAPlainCell : Obligations.KeyboardDataIsAPlainCell := by
  unfold Obligations.KeyboardDataIsAPlainCell
  have plain : ∀ s : State, s.memRead kbdr = (s.mem.read kbdr, s) :=
    fun s => memRead_of_ne kbdr_ne_kbsr
  refine ⟨plain, fun s v => ?_, fun s b rest hp => ?_, ?_⟩
  · exact (congrArg Prod.fst (plain _)).trans (by simp [kbdr])
  · change lowByte (((s.memRead kbsr).2.memRead kbdr).1) = b
    rw [plain, memRead_kbsr, readKbsr_of_pending hp]
    simp [lowByte_zext8]
  · exact (congrArg Prod.fst (plain _)).trans (read_nil kbdr)

/-! ### A store where `pc` points -/

/-- A step of a ready engine runs the word stored at `pc`, away from 0xFE00 (R90, R91). -/
theorem step_of_stored {s : State} (hready : Ready s) (hpc : s.pc ≠ kbsr) :
    step s = exec (decode (s.mem.read s.pc)) { s with pc := s.pc + 1#16 } := by
  rw [step_ready hready, State.fetch, memRead_of_ne hpc]

/-- STI whose pointer is read from a plain cell stores there, with no other effect. -/
theorem execSti_of_plain_pointer {s : State} {sr : Reg} {off9 : BitVec 9}
    (h : s.pcRel off9 ≠ kbsr) :
    execSti sr off9 s = .next (s.memWrite (s.mem.read (s.pcRel off9)) (s.reg sr)) := by
  rw [execSti, memRead_of_ne h]

/-- Settles O37: each of the three is a store at `pc`, which the next fetch reads back. -/
theorem storedWordIsExecutedNext : Obligations.StoredWordIsExecutedNext := by
  unfold Obligations.StoredWordIsExecutedNext
  intro i sr baseR off9 off6 s hready hpc hstore
  have hexec : exec i s = .next (s.memWrite s.pc (s.reg sr)) := by
    rcases hstore with ⟨rfl, ha⟩ | ⟨rfl, ha⟩ | ⟨rfl, hplain, ha⟩
    · simp only [exec, execSt, State.pcRel, sext, ha]
    · simp only [exec, execStr, State.baseOff, sext, ha]
    · exact (execSti_of_plain_pointer hplain).trans
        (congrArg (fun a => Host.Outcome.next (s.memWrite a (s.reg sr))) ha)
  refine ⟨_, hexec, ?_⟩
  have hnext := step_of_stored (s := s.memWrite s.pc (s.reg sr)) hready hpc
  simpa using hnext

/-! ### What changes memory -/

/-- A routine that takes no character changes no cell. -/
theorem sameMem_of_same_input {s t : State} (frame : RoutineFrame s t)
    (hinput : t.console.pending ++ t.console.incoming =
      s.console.pending ++ s.console.incoming) : SameMem s t := by
  obtain ⟨taken, htaken, hmem⟩ := frame.input
  rw [hinput] at htaken
  have hnil : taken = [] := by simpa using htaken
  intro a
  rw [hmem hnil]

/-- Settles O52: an instruction that is no store leaves memory to its reads, and a read changes it only
by staging a character that it takes. -/
theorem onlyStoresAndStagingChangeMemory : Obligations.OnlyStoresAndStagingChangeMemory := by
  unfold Obligations.OnlyStoresAndStagingChangeMemory
  intro i s t h hstore
  cases execShape_of_exec h with
  | @result u _ _ _ reads =>
    exact ⟨reads.mem, sameMem_of_same_input (t := u) reads.toRoutineFrame⟩
  | store kind => simp [kind] at hstore
  | routine _ frame => exact ⟨frame.mem, sameMem_of_same_input frame⟩
  | jump | call | halt | fault => exact ⟨fun _ _ => rfl, fun _ _ => rfl⟩

end Sys2Proof.Proofs.ReadsAndStores
end

section
/-!
The console's input (R61): the law that ties a poll to the next read, and that a step only ever takes
characters from the front.
-/

namespace Sys2Proof.Proofs.ConsoleInput

open Sys2Proof Sys2Proof.Machine Sys2Proof.Safety Sys2Proof.Laws Sys2Proof.Proofs.Shapes

theorem poll_of_pending {c : Console} (hp : c.pending ≠ []) : c.poll = (true, c) := by
  rcases poll_cases c with ⟨-, h⟩ | ⟨hp', -⟩ | ⟨_, _, hp', -⟩
  · exact h
  · exact absurd hp' hp
  · exact absurd hp' hp

theorem poll_input (c : Console) :
    c.poll.2.pending ++ c.poll.2.incoming = c.pending ++ c.incoming := by
  rcases poll_cases c with ⟨-, h⟩ | ⟨-, -, h⟩ | ⟨b, rest, hp, hi, h | h⟩ <;> rw [h]
  simp [hp, hi]

theorem pending_of_poll {c : Console} (h : c.poll.1 = true) : c.poll.2.pending ≠ [] := by
  rcases poll_cases c with ⟨hp, e⟩ | ⟨-, -, e⟩ | ⟨b, rest, -, -, e | e⟩ <;> simp_all

theorem read_of_input {c : Console} {b : Byte} {rest : List Byte}
    (h : c.pending ++ c.incoming = b :: rest) :
    ∃ c', c.read = some (b, c') ∧ c'.pending ++ c'.incoming = rest := by
  rcases read_cases c with ⟨hp, hi, -⟩ | ⟨b', c', hread, hinput, -⟩
  · simp [hp, hi] at h
  · obtain ⟨rfl, rfl⟩ := List.cons.inj (h.symm.trans hinput)
    exact ⟨c', hread, rfl⟩

/-- Settles O15: each clause is read off what a poll and a read can do. -/
theorem polledCharacterIsTheOneRead : Obligations.PolledCharacterIsTheOneRead := by
  unfold Obligations.PolledCharacterIsTheOneRead
  intro c
  refine ⟨poll_input c, fun hfound => ?_, poll_of_pending, fun _ _ => read_of_input,
    fun hp hi => ?_⟩
  · have hp := pending_of_poll hfound
    exact ⟨hp, poll_of_pending hp⟩
  · exact ⟨by simp [Console.poll, hp, hi], by simp [Console.read, hp, hi]⟩

/-- The characters the console still has to deliver, in order (R61, D11). -/
def input (s : State) : List Byte := s.console.pending ++ s.console.incoming

theorem input_suffix_of_frame {s t : State} (frame : RoutineFrame s t) : input t <:+ input s := by
  obtain ⟨taken, htaken, -⟩ := frame.input
  exact ⟨taken, htaken.symm⟩

theorem input_suffix_fetch (s : State) : input s.fetch.2 <:+ input s :=
  input_suffix_of_frame (t := (s.memRead s.pc).2) (routineFrame_memRead s s.pc)

theorem input_suffix_of_execShape {i : Instr} {s t : State} (shape : ExecShape i s t) :
    input t <:+ input s := by
  cases shape with
  | @result u _ _ _ reads => exact input_suffix_of_frame (t := u) reads.toRoutineFrame
  | @store u _ _ _ _ reads => exact input_suffix_of_frame (t := u) reads.toRoutineFrame
  | routine _ frame => exact input_suffix_of_frame frame
  | jump | call | halt | fault => exact List.suffix_refl _

/-- Settles O56: the fetch, the instruction and a held routine each leave a suffix of the input. -/
theorem inputIsConsumedInOrder : Obligations.InputIsConsumedInOrder := by
  unfold Obligations.InputIsConsumedInOrder
  intro s t h
  have hsuffix : input t <:+ input s := by
    rcases step_cases h with ⟨-, rfl⟩ | ⟨-, shape⟩ | ⟨-, -, rfl⟩
    · exact List.suffix_refl _
    · exact (input_suffix_of_execShape shape).trans (input_suffix_fetch s)
    · exact input_suffix_of_frame (routineFrame_resume s)
  obtain ⟨taken, htaken⟩ := hsuffix
  exact ⟨taken, htaken.symm⟩

end Sys2Proof.Proofs.ConsoleInput
end

section
/-!
The stored content of 0xFE00 is unobservable (R43, D8, D9). Two states that differ there only are one
state with two memories, so every operation is compared once, on that form.
-/

namespace Sys2Proof.Proofs.StatusCell

open Sys2Proof Sys2Proof.Machine Sys2Proof.Safety Sys2Proof.Laws Sys2Proof.Proofs.Shapes

/-- `s` with another memory. -/
def withMem (s : State) (m : Memory) : State := { s with mem := m }

theorem withMem_console (s : State) (m : Memory) : (withMem s m).console = s.console := rfl

/-- The memories read alike away from 0xFE00. -/
def AgreeOffStatus (m m' : Memory) : Prop := ∀ a, a ≠ kbsr → m'.read a = m.read a

theorem kbsrBlind_iff {s s' : State} :
    KbsrBlind s s' ↔ ∃ m, s' = withMem s m ∧ AgreeOffStatus s.mem m := by
  constructor
  · rintro ⟨hregs, hpc, hcond, ⟨hrun, hout, hconsole, hhold⟩, hmem⟩
    refine ⟨s'.mem, ?_, hmem⟩
    cases s
    cases s'
    subst hregs hpc hcond hrun hout hconsole hhold
    rfl
  · rintro ⟨m, rfl, hmem⟩
    exact ⟨rfl, rfl, rfl, ⟨rfl, rfl, rfl, rfl⟩, hmem⟩

theorem kbsrBlind_withMem {s : State} {m : Memory} (h : AgreeOffStatus s.mem m) :
    KbsrBlind s (withMem s m) :=
  kbsrBlind_iff.2 ⟨m, rfl, h⟩

theorem agreeOffStatus_write {m m' : Memory} (h : AgreeOffStatus m m') (a v : Word) :
    AgreeOffStatus (m.write a v) (m'.write a v) := by
  intro b hb
  rw [read_write, read_write, h b hb]

/-! ### Reads and stores -/

/-- Two reads gave the same word and left states that differ at 0xFE00 only. -/
def SameRead (r r' : Word × State) : Prop := r'.1 = r.1 ∧ KbsrBlind r.2 r'.2

theorem sameRead_readKbsr {s : State} {m : Memory} (h : AgreeOffStatus s.mem m) :
    SameRead s.readKbsr (withMem s m).readKbsr := by
  unfold State.readKbsr
  rw [withMem_console]
  split
  · exact ⟨rfl, kbsrBlind_withMem h⟩
  · split
    · exact ⟨rfl, kbsrBlind_withMem (agreeOffStatus_write h _ _)⟩
    · exact ⟨rfl, kbsrBlind_withMem h⟩

/-- The one read path never returns the stored content of 0xFE00 (R43, R47). -/
theorem sameRead_memRead {s s' : State} (h : KbsrBlind s s') (a : Word) :
    SameRead (s.memRead a) (s'.memRead a) := by
  obtain ⟨m, rfl, hm⟩ := kbsrBlind_iff.1 h
  by_cases ha : a = kbsr
  · subst ha
    rw [memRead_kbsr, memRead_kbsr]
    exact sameRead_readKbsr hm
  · rw [memRead_of_ne ha, memRead_of_ne ha]
    exact ⟨hm a ha, h⟩

theorem kbsrBlind_memWrite {s s' : State} (h : KbsrBlind s s') (a v : Word) :
    KbsrBlind (s.memWrite a v) (s'.memWrite a v) := by
  obtain ⟨m, rfl, hm⟩ := kbsrBlind_iff.1 h
  exact kbsrBlind_withMem (agreeOffStatus_write hm a v)

/-! ### What does not look at memory -/

section
variable {s s' : State} (h : KbsrBlind s s')
include h

theorem pc_congr : s'.pc = s.pc := by
  obtain ⟨m, rfl, -⟩ := kbsrBlind_iff.1 h
  rfl

theorem cond_congr : s'.cond = s.cond := by
  obtain ⟨m, rfl, -⟩ := kbsrBlind_iff.1 h
  rfl

theorem run_congr : s'.run = s.run := by
  obtain ⟨m, rfl, -⟩ := kbsrBlind_iff.1 h
  rfl

theorem hold_congr : s'.hold = s.hold := by
  obtain ⟨m, rfl, -⟩ := kbsrBlind_iff.1 h
  rfl

theorem reg_congr_of_blind (r : Reg) : s'.reg r = s.reg r := by
  obtain ⟨m, rfl, -⟩ := kbsrBlind_iff.1 h
  rfl

theorem pcRel_congr {k : Nat} (off : BitVec k) : s'.pcRel off = s.pcRel off := by
  rw [State.pcRel, State.pcRel, pc_congr h]

theorem baseOff_congr (baseR : Reg) (off6 : BitVec 6) :
    s'.baseOff baseR off6 = s.baseOff baseR off6 := by
  rw [State.baseOff, State.baseOff, reg_congr_of_blind h]

theorem outcome_congr : s'.outcome = s.outcome := by
  rw [State.outcome, State.outcome, run_congr h]

/-- An update that does the same under any memory, and so leaves memory alone, keeps two states
related. -/
theorem kbsrBlind_map {f : State → State} (hf : ∀ s m, f (withMem s m) = withMem (f s) m) :
    KbsrBlind (f s) (f s') := by
  obtain ⟨m, rfl, hm⟩ := kbsrBlind_iff.1 h
  have hsame : f s = withMem (f s) s.mem := hf s s.mem
  have hmem : (f s).mem = s.mem := (congrArg State.mem hsame).trans rfl
  rw [hf]
  exact kbsrBlind_withMem (hmem.symm ▸ hm)

theorem kbsrBlind_setResult (dr : Reg) (v : Word) :
    KbsrBlind (s.setResult dr v) (s'.setResult dr v) :=
  kbsrBlind_map h (f := (·.setResult dr v)) fun _ _ => rfl

theorem kbsrBlind_jumpTo (v : Word) : KbsrBlind (s.jumpTo v) (s'.jumpTo v) :=
  kbsrBlind_map h (f := (·.jumpTo v)) fun _ _ => rfl

theorem kbsrBlind_consoleWrite (b : Byte) : KbsrBlind (s.consoleWrite b) (s'.consoleWrite b) :=
  kbsrBlind_map h (f := (·.consoleWrite b)) fun _ _ => rfl

theorem kbsrBlind_consoleWriteAll (bs : List Byte) :
    KbsrBlind (s.consoleWriteAll bs) (s'.consoleWriteAll bs) :=
  kbsrBlind_map h (f := (·.consoleWriteAll bs)) fun _ _ => rfl

theorem kbsrBlind_setHold (hold : Hold) :
    KbsrBlind { s with hold := hold } { s' with hold := hold } :=
  kbsrBlind_map h (f := fun s => { s with hold := hold }) fun _ _ => rfl

end

/-! ### The routines -/

theorem getcRead_withMem (s : State) (m : Memory) :
    (withMem s m).getcRead = withMem s.getcRead m := by
  unfold State.getcRead
  rw [withMem_console]
  split <;> rfl

theorem inRead_withMem (s : State) (m : Memory) :
    (withMem s m).inRead = withMem s.inRead m := by
  unfold State.inRead
  rw [withMem_console]
  split <;> rfl

theorem kbsrBlind_putsLoop (n : Nat) (a : Word) {s s' : State} (h : KbsrBlind s s') :
    KbsrBlind (putsLoop n a s) (putsLoop n a s') := by
  induction n generalizing a s s' with
  | zero => exact kbsrBlind_setHold h _
  | succ n ih =>
    obtain ⟨hword, hstate⟩ := sameRead_memRead h a
    simp only [putsLoop, hword]
    split
    · exact kbsrBlind_setHold hstate _
    · exact ih _ (kbsrBlind_consoleWrite hstate _)

theorem kbsrBlind_putspLoop (n : Nat) (a : Word) {s s' : State} (h : KbsrBlind s s') :
    KbsrBlind (putspLoop n a s) (putspLoop n a s') := by
  induction n generalizing a s s' with
  | zero => exact kbsrBlind_setHold h _
  | succ n ih =>
    obtain ⟨hword, hstate⟩ := sameRead_memRead h a
    simp only [putspLoop, hword]
    split
    · exact kbsrBlind_setHold hstate _
    · have hlow := kbsrBlind_consoleWrite hstate (lowByte (s.memRead a).1)
      split
      · exact kbsrBlind_setHold hlow _
      · exact ih _ (kbsrBlind_consoleWrite hlow _)

theorem kbsrBlind_resume {s s' : State} (h : KbsrBlind s s') : KbsrBlind s.resume s'.resume := by
  unfold State.resume
  rw [hold_congr h]
  split
  · exact h
  · exact kbsrBlind_map h getcRead_withMem
  · exact kbsrBlind_map h inRead_withMem
  · exact kbsrBlind_putsLoop lap _ h
  · exact kbsrBlind_putspLoop lap _ h

/-! ### Instructions and steps -/

/-- Both outcomes are next states, and these differ at 0xFE00 only. -/
def SameNext (o o' : Host.Outcome State Fault Refusal) : Prop :=
  ∃ t t', o = .next t ∧ o' = .next t' ∧ KbsrBlind t t'

theorem SameNext.next {t t' : State} (h : KbsrBlind t t') : SameNext (.next t) (.next t') :=
  ⟨t, t', rfl, rfl, h⟩

theorem sameNext_execLdi {s s' : State} (h : KbsrBlind s s') (dr : Reg) (off9 : BitVec 9) :
    SameNext (execLdi dr off9 s) (execLdi dr off9 s') := by
  obtain ⟨hptr, hmid⟩ := sameRead_memRead h (s.pcRel off9)
  obtain ⟨hword, hstate⟩ := sameRead_memRead hmid (s.memRead (s.pcRel off9)).1
  simp only [execLdi, pcRel_congr h, hptr, hword]
  exact .next (kbsrBlind_setResult hstate dr _)

theorem sameNext_execSti {s s' : State} (h : KbsrBlind s s') (sr : Reg) (off9 : BitVec 9) :
    SameNext (execSti sr off9 s) (execSti sr off9 s') := by
  obtain ⟨hptr, hmid⟩ := sameRead_memRead h (s.pcRel off9)
  simp only [execSti, pcRel_congr h, hptr, reg_congr_of_blind hmid]
  exact .next (kbsrBlind_memWrite hmid _ _)

theorem sameNext_exec (i : Instr) {s s' : State} (h : KbsrBlind s s') :
    SameNext (exec i s) (exec i s') := by
  have hreg := reg_congr_of_blind h
  cases i with
  | ld dr off9 =>
    obtain ⟨hword, hstate⟩ := sameRead_memRead h (s.pcRel off9)
    simp only [exec, execLd, pcRel_congr h, hword]
    exact .next (kbsrBlind_setResult hstate dr _)
  | ldr dr baseR off6 =>
    obtain ⟨hword, hstate⟩ := sameRead_memRead h (s.baseOff baseR off6)
    simp only [exec, execLdr, baseOff_congr h, hword]
    exact .next (kbsrBlind_setResult hstate dr _)
  | ldi dr off9 => exact sameNext_execLdi h dr off9
  | st sr off9 =>
    simp only [exec, execSt, pcRel_congr h, hreg]
    exact .next (kbsrBlind_memWrite h _ _)
  | str sr baseR off6 =>
    simp only [exec, execStr, baseOff_congr h, hreg]
    exact .next (kbsrBlind_memWrite h _ _)
  | sti sr off9 => exact sameNext_execSti h sr off9
  | trapGetc => exact .next (kbsrBlind_map h getcRead_withMem)
  | trapIn => exact .next (kbsrBlind_map (kbsrBlind_consoleWriteAll h _) inRead_withMem)
  | trapPuts =>
    simp only [exec, execPuts, hreg]
    exact .next (kbsrBlind_putsLoop lap _ h)
  | trapPutsp =>
    simp only [exec, execPutsp, hreg]
    exact .next (kbsrBlind_putspLoop lap _ h)
  | br n z p off9 =>
    simp only [exec, execBr, pcRel_congr h, cond_congr h]
    split
    · exact .next (kbsrBlind_jumpTo h _)
    · exact .next h
  | _ =>
    -- every other instruction does the same under any memory
    obtain ⟨m, rfl, hm⟩ := kbsrBlind_iff.1 h
    exact .next (kbsrBlind_withMem (m := m) hm)

theorem sameRead_fetch {s s' : State} (h : KbsrBlind s s') : SameRead s.fetch s'.fetch := by
  obtain ⟨hword, hstate⟩ := sameRead_memRead h s.pc
  simp only [State.fetch, pc_congr h]
  exact ⟨hword, kbsrBlind_jumpTo hstate _⟩

theorem sameNext_step {s s' : State} (h : KbsrBlind s s') : SameNext (step s) (step s') := by
  have hrun := run_congr h
  have hhold := hold_congr h
  by_cases running : s.run = .running
  · by_cases idle : s.hold = .idle
    · obtain ⟨hword, hstate⟩ := sameRead_fetch h
      rw [step_ready ⟨running, idle⟩, step_ready ⟨hrun.trans running, hhold.trans idle⟩, hword]
      exact sameNext_exec _ hstate
    · rw [step_held running idle, step_held (hrun.trans running) (hhold ▸ idle)]
      exact .next (kbsrBlind_resume h)
  · rw [step_ended running, step_ended (hrun ▸ running)]
    exact .next h

/-- Settles O57: every read a step makes gives both states the same word, and every write changes both
memories alike. -/
theorem storedStatusCellIsUnobservable : Obligations.StoredStatusCellIsUnobservable := by
  unfold Obligations.StoredStatusCellIsUnobservable
  intro s s' h
  obtain ⟨t, t', ht, ht', hblind⟩ := sameNext_step h
  exact ⟨t, t', ht, ht', hblind, outcome_congr hblind⟩

end Sys2Proof.Proofs.StatusCell
end

section
/-!
The instruction word as a list of fields (R73, R74). A word decodes to a well-formed instruction when
it holds the instruction's fields, and every word holds the fields of what it decodes to; the
statements about decoder and encoder are read off these two facts.
-/

namespace Sys2Proof.Proofs.Fields

open Sys2Proof Sys2Proof.Safety Sys2Proof.Laws

/-- A field of an instruction word: its lowest bit, its width and what it holds. -/
structure WordField where
  lo : Nat
  len : Nat
  val : BitVec len

/-- The opcode field (R71). -/
def WordField.opcode (op : BitVec 4) : WordField := ⟨12, 4, op⟩

/-- A register field (R74). -/
def WordField.reg (lo : Nat) (r : Reg) : WordField := ⟨lo, 3, BitVec.ofFin (w := 3) r⟩

/-- A field of one bit: a test bit or a mode bit (R74, R76). -/
def WordField.bit (lo : Nat) (b : Bool) : WordField := ⟨lo, 1, BitVec.ofBool b⟩

/-- A field at the low end of the word: an immediate, an offset or a trap vector (R74). -/
def WordField.low {k : Nat} (v : BitVec k) : WordField := ⟨0, k, v⟩

/-- The fields of an instruction's word, unused bits left out (R73, R77). -/
def fields : Instr → List WordField
  | .br n z p off9 => [.opcode 0x0#4, .bit 11 n, .bit 10 z, .bit 9 p, .low off9]
  | .addReg dr sr1 sr2 => [.opcode 0x1#4, .reg 9 dr, .reg 6 sr1, .bit 5 false, .reg 0 sr2]
  | .addImm dr sr1 imm5 => [.opcode 0x1#4, .reg 9 dr, .reg 6 sr1, .bit 5 true, .low imm5]
  | .ld dr off9 => [.opcode 0x2#4, .reg 9 dr, .low off9]
  | .st sr off9 => [.opcode 0x3#4, .reg 9 sr, .low off9]
  | .jsrr baseR => [.opcode 0x4#4, .bit 11 false, .reg 6 baseR]
  | .jsr off11 => [.opcode 0x4#4, .bit 11 true, .low off11]
  | .andReg dr sr1 sr2 => [.opcode 0x5#4, .reg 9 dr, .reg 6 sr1, .bit 5 false, .reg 0 sr2]
  | .andImm dr sr1 imm5 => [.opcode 0x5#4, .reg 9 dr, .reg 6 sr1, .bit 5 true, .low imm5]
  | .ldr dr baseR off6 => [.opcode 0x6#4, .reg 9 dr, .reg 6 baseR, .low off6]
  | .str sr baseR off6 => [.opcode 0x7#4, .reg 9 sr, .reg 6 baseR, .low off6]
  | .rti low12 => [.opcode 0x8#4, .low low12]
  | .notReg dr sr => [.opcode 0x9#4, .reg 9 dr, .reg 6 sr]
  | .ldi dr off9 => [.opcode 0xA#4, .reg 9 dr, .low off9]
  | .sti sr off9 => [.opcode 0xB#4, .reg 9 sr, .low off9]
  | .jmp baseR => [.opcode 0xC#4, .reg 6 baseR]
  | .res low12 => [.opcode 0xD#4, .low low12]
  | .lea dr off9 => [.opcode 0xE#4, .reg 9 dr, .low off9]
  | .trapGetc => [.opcode 0xF#4, .low 0x20#8]
  | .trapOut => [.opcode 0xF#4, .low 0x21#8]
  | .trapPuts => [.opcode 0xF#4, .low 0x22#8]
  | .trapIn => [.opcode 0xF#4, .low 0x23#8]
  | .trapPutsp => [.opcode 0xF#4, .low 0x24#8]
  | .trapHalt => [.opcode 0xF#4, .low 0x25#8]
  | .trapVec00To1F hi4 vec | .trapVec26To27 hi4 vec | .trapVec28To2F hi4 vec
  | .trapVec30To3F hi4 vec | .trapVec40To7F hi4 vec | .trapVec80ToFF hi4 vec =>
    [.opcode 0xF#4, ⟨8, 4, hi4⟩, .low vec]

/-- The word has this field's value at this field's place. -/
def HasField (w : Word) (f : WordField) : Prop := slice w f.lo f.len = f.val

/-- The word holds every field of the instruction. -/
def HasFields (w : Word) (i : Instr) : Prop := (fields i).Forall (HasField w)

section
variable {w : Word}

@[simp] theorem hasField_opcode {op : BitVec 4} : HasField w (.opcode op) ↔ opcodeOf w = op := Iff.rfl

@[simp] theorem hasField_low {k : Nat} {v : BitVec k} : HasField w (.low v) ↔ slice w 0 k = v := Iff.rfl

@[simp] theorem hasField_mk {lo len : Nat} {v : BitVec len} :
    HasField w ⟨lo, len, v⟩ ↔ slice w lo len = v := Iff.rfl

@[simp] theorem hasField_reg {lo : Nat} {r : Reg} : HasField w (.reg lo r) ↔ regAt w lo = r :=
  ⟨regAt_eq w lo r, fun h => congrArg (BitVec.ofFin (w := 3)) h⟩

@[simp] theorem hasField_bit {lo : Nat} {b : Bool} : HasField w (.bit lo b) ↔ bitAt w lo = b := by
  rw [← BitVec.ofBool_eq_iff_eq (b := bitAt w lo)]
  have one : slice w lo 1 = BitVec.ofBool (bitAt w lo) := by
    refine BitVec.eq_of_getLsbD_eq fun k hk => ?_
    obtain rfl : k = 0 := by omega
    simp [slice, bitAt]
  simp [HasField, WordField.bit, one]

end

/-- Opcode 15 leaves the choice of the instruction to the vector. -/
theorem decode_of_trap {w : Word} (op : opcodeOf w = 0xF#4) :
    decode w = decodeTrap (slice w 8 4) (slice w 0 8) := by
  simp [decode, op]

/-- A word decodes to any well-formed instruction whose fields it holds. -/
theorem decode_of_hasFields {w : Word} {i : Instr} (wf : i.wellFormed = true) (h : HasFields w i) :
    decode w = i := by
  cases i <;>
    simp only [HasFields, fields, List.Forall, hasField_opcode, hasField_reg, hasField_bit, hasField_low,
      hasField_mk] at h
  case trapVec00To1F | trapVec26To27 | trapVec28To2F | trapVec30To3F | trapVec40To7F | trapVec80ToFF =>
    -- the range leaves one branch of the decoder's comparisons
    obtain ⟨op, rfl, rfl⟩ := h
    simp only [Instr.wellFormed, vecIn, decide_eq_true_eq] at wf
    rw [decode_of_trap op, decodeTrap_of_range _ _ (by omega)]
    grind
  all_goals simp [decode, decodeTrap, h]

/-- The twelve rows of opcode 15, by their vectors (R79, R84). -/
theorem vector_cases (vec : Byte) :
    vec = 0x20#8 ∨ vec = 0x21#8 ∨ vec = 0x22#8 ∨ vec = 0x23#8 ∨ vec = 0x24#8 ∨ vec = 0x25#8 ∨
    vecIn 0x00 0x1F vec = true ∨ vecIn 0x26 0x27 vec = true ∨ vecIn 0x28 0x2F vec = true ∨
    vecIn 0x30 0x3F vec = true ∨ vecIn 0x40 0x7F vec = true ∨ vecIn 0x80 0xFF vec = true := by
  simp only [vecIn, decide_eq_true_eq]
  bv_omega

theorem exists_hasFields_of_trap {w : Word} (op : opcodeOf w = 0xF#4) :
    ∃ i : Instr, i.wellFormed = true ∧ HasFields w i := by
  obtain vec | vec | vec | vec | vec | vec | vec | vec | vec | vec | vec | vec :=
    vector_cases (slice w 0 8)
  · exact ⟨.trapGetc, rfl, op, vec⟩
  · exact ⟨.trapOut, rfl, op, vec⟩
  · exact ⟨.trapPuts, rfl, op, vec⟩
  · exact ⟨.trapIn, rfl, op, vec⟩
  · exact ⟨.trapPutsp, rfl, op, vec⟩
  · exact ⟨.trapHalt, rfl, op, vec⟩
  · exact ⟨.trapVec00To1F (slice w 8 4) _, vec, op, rfl, rfl⟩
  · exact ⟨.trapVec26To27 (slice w 8 4) _, vec, op, rfl, rfl⟩
  · exact ⟨.trapVec28To2F (slice w 8 4) _, vec, op, rfl, rfl⟩
  · exact ⟨.trapVec30To3F (slice w 8 4) _, vec, op, rfl, rfl⟩
  · exact ⟨.trapVec40To7F (slice w 8 4) _, vec, op, rfl, rfl⟩
  · exact ⟨.trapVec80ToFF (slice w 8 4) _, vec, op, rfl, rfl⟩

/-- The word holds the fields of what it decodes to, and that is a well-formed instruction (R84). -/
theorem decode_sound (w : Word) : (decode w).wellFormed = true ∧ HasFields w (decode w) := by
  by_cases trap : opcodeOf w = 0xF#4
  · obtain ⟨i, wf, h⟩ := exists_hasFields_of_trap trap
    rw [decode_of_hasFields wf h]
    exact ⟨wf, h⟩
  · unfold decode
    split
    case h_16 =>
      -- the decoder's last branch has no opcode but 15 left
      refine absurd ?_ trap
      simp only [imp_false] at *
      bv_omega
    case h_2 | h_5 | h_6 =>
      split <;> simp [Instr.wellFormed, HasFields, fields, ← BitVec.toNat_inj, *]
    all_goals simp [Instr.wellFormed, HasFields, fields, ← BitVec.toNat_inj, *]

theorem hasFields_encode (i : Instr) : HasFields (encode i) i := by
  cases i <;> simp [HasFields, fields, encode, opcodeOf, regAt]

/-- Settles O1: the word the encoder builds holds the instruction's fields. -/
theorem decodeEncodeRoundTrip : Obligations.DecodeEncodeRoundTrip := by
  unfold Obligations.DecodeEncodeRoundTrip
  exact fun i wf => decode_of_hasFields wf (hasFields_encode i)

/-- Opcode 15 outside the six routines' vectors is an unrecognised vector (R79). -/
theorem isBadVector_decode {w : Word} (op : opcodeOf w = 0xF#4)
    (range : (slice w 0 8).toNat < 0x20 ∨ 0x25 < (slice w 0 8).toNat) :
    isBadVector (decode w) = true := by
  rw [decode_of_trap op, decodeTrap_of_range _ _ range]
  split_ifs <;> rfl

/-- Settles O2: each clause lists the fields of the instruction it names. -/
theorem decodeReadsEachField : Obligations.DecodeReadsEachField := by
  unfold Obligations.DecodeReadsEachField
  intro w op at9 at6 at0 off9
  have reg (lo : Nat) : HasField w (.reg lo (regAt w lo)) := rfl
  have bit {k : Nat} {b : Bool} (h : w.getLsbD k = b) : HasField w (.bit k b) := hasField_bit.2 h
  refine ⟨fun h => decode_of_hasFields rfl ⟨h, bit rfl, bit rfl, bit rfl, rfl⟩,
    fun h mode => decode_of_hasFields rfl ⟨h, reg 9, reg 6, bit mode, reg 0⟩,
    fun h mode => decode_of_hasFields rfl ⟨h, reg 9, reg 6, bit mode, rfl⟩,
    fun h => decode_of_hasFields rfl ⟨h, reg 9, rfl⟩,
    fun h => decode_of_hasFields rfl ⟨h, reg 9, rfl⟩,
    fun h mode => decode_of_hasFields rfl ⟨h, bit mode, rfl⟩,
    fun h mode => decode_of_hasFields rfl ⟨h, bit mode, reg 6⟩,
    fun h mode => decode_of_hasFields rfl ⟨h, reg 9, reg 6, bit mode, reg 0⟩,
    fun h mode => decode_of_hasFields rfl ⟨h, reg 9, reg 6, bit mode, rfl⟩,
    fun h => decode_of_hasFields rfl ⟨h, reg 9, reg 6, rfl⟩,
    fun h => decode_of_hasFields rfl ⟨h, reg 9, reg 6, rfl⟩,
    fun h => decode_of_hasFields rfl ⟨h, rfl⟩,
    fun h => decode_of_hasFields rfl ⟨h, reg 9, reg 6⟩,
    fun h => decode_of_hasFields rfl ⟨h, reg 9, rfl⟩,
    fun h => decode_of_hasFields rfl ⟨h, reg 9, rfl⟩,
    fun h => decode_of_hasFields rfl ⟨h, reg 6⟩,
    fun h => decode_of_hasFields rfl ⟨h, rfl⟩,
    fun h => decode_of_hasFields rfl ⟨h, reg 9, rfl⟩,
    fun h => ⟨?_, ?_, ?_, ?_, ?_, ?_, isBadVector_decode h⟩⟩
  all_goals exact fun vec => decode_of_hasFields rfl ⟨h, vec⟩

/-- Settles O5, by running the decoder on each word. -/
theorem writtenWordsDecode : Obligations.WrittenWordsDecode := by
  unfold Obligations.WrittenWordsDecode
  decide

end Sys2Proof.Proofs.Fields
end

section
/-!
The rows of the opcode table (R84). A word that holds an instruction's fields lies in its row, and no
word lies in two rows, since the fixed bits of any two rows differ where both fix them.
-/

namespace Sys2Proof.Proofs.Rows

open Sys2Proof Sys2Proof.Laws Sys2Proof.Proofs.Fields

/-- The word has the row's fixed bits. -/
def InRow (w : Word) (r : Row) : Prop := w &&& r.mask = r.value

section
variable {w : Word}

theorem inRow_of_opcode {op : BitVec 4} {v : Word} (h : opcodeOf w = op) (hv : field op 12 = v) :
    InRow w ⟨0xF000#16, v⟩ := by
  rw [← hv, ← h]
  exact and_opcodeMask w

theorem inRow_of_mode {op : BitVec 4} {b : Bool} {v : Word} (h : opcodeOf w = op)
    (mode : bitAt w 5 = b) (hv : field op 12 ||| bitField b 5 = v) : InRow w ⟨0xF020#16, v⟩ := by
  rw [← hv, ← h, ← mode]
  exact and_modeMask w

theorem inRow_of_jsrMode {op : BitVec 4} {b : Bool} {v : Word} (h : opcodeOf w = op)
    (mode : bitAt w 11 = b) (hv : field op 12 ||| bitField b 11 = v) : InRow w ⟨0xF800#16, v⟩ := by
  rw [← hv, ← h, ← mode]
  exact and_jsrMask w

/-- The vectors that agree from bit `k` up are those of one block of `2 ^ k` vectors. -/
theorem and_blockMask (vec : Byte) (k : Nat) :
    vec &&& (BitVec.allOnes 8 <<< k) = BitVec.ofNat 8 (vec.toNat / 2 ^ k) <<< k := by
  have shifted : BitVec.ofNat 8 (vec.toNat / 2 ^ k) = vec >>> k := by
    rw [← Nat.shiftRight_eq_div_pow, ← BitVec.toNat_ushiftRight, BitVec.ofNat_toNat,
      BitVec.setWidth_eq]
  rw [shifted]
  refine BitVec.eq_of_getLsbD_eq fun j hj => ?_
  simp only [BitVec.getLsbD_and, BitVec.getLsbD_shiftLeft, BitVec.getLsbD_allOnes,
    BitVec.getLsbD_ushiftRight]
  by_cases hk : j < k
  · simp [hk]
  · simp [hk, hj, show k + (j - k) = j by omega, show j - k < 8 by omega]

/-- A row of opcode 15 holds one block of vectors: a routine's vector alone, or a range (R79, R84). -/
theorem inRow_of_vectorBlock (k n : Nat) {vec : Byte} {r : Row} (op : opcodeOf w = 0xF#4)
    (hvec : slice w 0 8 = vec) (block : vec.toNat / 2 ^ k = n)
    (hr : r = ⟨0xF0#8 ++ (BitVec.allOnes 8 <<< k), field 0xF#4 12 ||| field (BitVec.ofNat 8 n <<< k) 0⟩) :
    InRow w r := by
  rw [hr, ← op, ← block, ← hvec, ← and_blockMask]
  exact and_trapMask w _

end

theorem inRow_of_hasFields {w : Word} {i : Instr} (wf : i.wellFormed = true) (h : HasFields w i) :
    InRow w i.row := by
  cases i <;> simp only [Instr.wellFormed, vecIn, decide_eq_true_eq] at wf
  case addReg | addImm | andReg | andImm =>
    obtain ⟨op, -, -, mode, -⟩ := h
    exact inRow_of_mode op (hasField_bit.1 mode) rfl
  case jsr | jsrr =>
    obtain ⟨op, mode, -⟩ := h
    exact inRow_of_jsrMode op (hasField_bit.1 mode) rfl
  case trapGetc => exact inRow_of_vectorBlock 0 0x20 h.1 h.2 rfl rfl
  case trapOut => exact inRow_of_vectorBlock 0 0x21 h.1 h.2 rfl rfl
  case trapPuts => exact inRow_of_vectorBlock 0 0x22 h.1 h.2 rfl rfl
  case trapIn => exact inRow_of_vectorBlock 0 0x23 h.1 h.2 rfl rfl
  case trapPutsp => exact inRow_of_vectorBlock 0 0x24 h.1 h.2 rfl rfl
  case trapHalt => exact inRow_of_vectorBlock 0 0x25 h.1 h.2 rfl rfl
  case trapVec00To1F => exact inRow_of_vectorBlock 5 0 h.1 (hasField_low.1 h.2.2) (by omega) rfl
  case trapVec26To27 => exact inRow_of_vectorBlock 1 0x13 h.1 (hasField_low.1 h.2.2) (by omega) rfl
  case trapVec28To2F => exact inRow_of_vectorBlock 3 0x05 h.1 (hasField_low.1 h.2.2) (by omega) rfl
  case trapVec30To3F => exact inRow_of_vectorBlock 4 0x03 h.1 (hasField_low.1 h.2.2) (by omega) rfl
  case trapVec40To7F => exact inRow_of_vectorBlock 6 0x01 h.1 (hasField_low.1 h.2.2) (by omega) rfl
  case trapVec80ToFF => exact inRow_of_vectorBlock 7 0x01 h.1 (hasField_low.1 h.2.2) (by omega) rfl
  all_goals exact inRow_of_opcode h.1 rfl

/-- The thirty rows of `spec/opcode_table.json`. -/
def table : List Row :=
  [⟨0xF000#16, 0x0000#16⟩, ⟨0xF020#16, 0x1000#16⟩, ⟨0xF020#16, 0x1020#16⟩, ⟨0xF000#16, 0x2000#16⟩,
   ⟨0xF000#16, 0x3000#16⟩, ⟨0xF800#16, 0x4000#16⟩, ⟨0xF800#16, 0x4800#16⟩, ⟨0xF020#16, 0x5000#16⟩,
   ⟨0xF020#16, 0x5020#16⟩, ⟨0xF000#16, 0x6000#16⟩, ⟨0xF000#16, 0x7000#16⟩, ⟨0xF000#16, 0x8000#16⟩,
   ⟨0xF000#16, 0x9000#16⟩, ⟨0xF000#16, 0xA000#16⟩, ⟨0xF000#16, 0xB000#16⟩, ⟨0xF000#16, 0xC000#16⟩,
   ⟨0xF000#16, 0xD000#16⟩, ⟨0xF000#16, 0xE000#16⟩, ⟨0xF0FF#16, 0xF020#16⟩, ⟨0xF0FF#16, 0xF021#16⟩,
   ⟨0xF0FF#16, 0xF022#16⟩, ⟨0xF0FF#16, 0xF023#16⟩, ⟨0xF0FF#16, 0xF024#16⟩, ⟨0xF0FF#16, 0xF025#16⟩,
   ⟨0xF0E0#16, 0xF000#16⟩, ⟨0xF0FE#16, 0xF026#16⟩, ⟨0xF0F8#16, 0xF028#16⟩, ⟨0xF0F0#16, 0xF030#16⟩,
   ⟨0xF0C0#16, 0xF040#16⟩, ⟨0xF080#16, 0xF080#16⟩]

theorem row_mem_table (i : Instr) : i.row ∈ table := by
  cases i <;> simp [Instr.row, table]

/-- Two rows whose fixed bits agree wherever both fix them are the same row. -/
theorem table_disjoint :
    ∀ r ∈ table, ∀ r' ∈ table, r.value &&& r'.mask = r'.value &&& r.mask → r = r' := by
  decide

theorem row_eq_of_inRow {w : Word} {i j : Instr} (hi : InRow w i.row) (hj : InRow w j.row) :
    i.row = j.row := by
  refine table_disjoint _ (row_mem_table i) _ (row_mem_table j) ?_
  unfold InRow at hi hj
  rw [← hi, ← hj]
  ac_rfl

/-- Settles O3: the word holds the fields of its instruction, which put it in that row; rows do not
meet. -/
theorem eachWordLiesInExactlyItsRow : Obligations.EachWordLiesInExactlyItsRow := by
  unfold Obligations.EachWordLiesInExactlyItsRow
  intro w
  obtain ⟨wf, h⟩ := decode_sound w
  have own : InRow w (decode w).row := inRow_of_hasFields wf h
  exact ⟨wf, own, fun i hi => row_eq_of_inRow hi own⟩

end Sys2Proof.Proofs.Rows
end

section
/-!
Unused bits (R77). The fields of an instruction cover every bit of its word but the unused ones, so two
words agree off the unused bits exactly when they agree field by field.
-/

namespace Sys2Proof.Proofs.UnusedBits

open Sys2Proof Sys2Proof.Proofs.Fields

/-- The two words agree on the bits of the mask. -/
def SameOn (m w w' : Word) : Prop := w' &&& m = w &&& m

section
variable {w w' : Word}

theorem sameOn_iff {m : Word} : SameOn m w w' ↔ ∀ k, m.getLsbD k = true → w'.getLsbD k = w.getLsbD k := by
  constructor
  · intro h k hk
    simpa [hk] using congrArg (·.getLsbD k) h
  · intro h
    refine BitVec.eq_of_getLsbD_eq fun k _ => ?_
    by_cases hk : m.getLsbD k = true
    · simp [h k hk]
    · simp [hk]

theorem sameOn_or {m n : Word} : SameOn (m ||| n) w w' ↔ SameOn m w w' ∧ SameOn n w w' := by
  simp only [sameOn_iff, BitVec.getLsbD_or, Bool.or_eq_true, or_imp, forall_and]

/-- The bits a field takes. -/
def fieldMask (f : WordField) : Word := field (BitVec.allOnes f.len) f.lo

theorem fieldMask_getLsbD {f : WordField} {k : Nat} :
    (fieldMask f).getLsbD k = true ↔ f.lo ≤ k ∧ k < f.lo + f.len ∧ k < 16 := by
  simp [fieldMask, field]
  omega

theorem sameOn_fieldMask {f : WordField} :
    SameOn (fieldMask f) w w' ↔ slice w' f.lo f.len = slice w f.lo f.len := by
  rw [sameOn_iff]
  constructor
  · intro h
    refine BitVec.eq_of_getLsbD_eq fun k hk => ?_
    by_cases inWord : f.lo + k < 16
    · simpa [slice, hk] using h (f.lo + k) (fieldMask_getLsbD.2 (by omega))
    · simp [slice, BitVec.getLsbD_of_ge, show 16 ≤ f.lo + k by omega]
  · intro h k hk
    obtain ⟨above, below, -⟩ := fieldMask_getLsbD.1 hk
    have bit := congrArg (·.getLsbD (k - f.lo)) h
    simpa [slice, show k - f.lo < f.len by omega, show f.lo + (k - f.lo) = k by omega] using bit

/-- The bits the fields of a list take. -/
def fieldsMask (fs : List WordField) : Word := fs.foldr (fun f m => fieldMask f ||| m) 0#16

theorem sameOn_fieldsMask {fs : List WordField} :
    SameOn (fieldsMask fs) w w' ↔ fs.Forall fun f => slice w' f.lo f.len = slice w f.lo f.len := by
  induction fs with
  | nil => simp [fieldsMask, SameOn]
  | cons f fs ih => rw [List.forall_cons, ← ih, ← sameOn_fieldMask, ← sameOn_or]; rfl

end

theorem fieldsMask_fields (i : Instr) : fieldsMask (fields i) = ~~~ i.unusedBits := by
  cases i <;>
    simp only [fieldsMask, fields, List.foldr, fieldMask, WordField.opcode, WordField.reg, WordField.bit,
      WordField.low, Instr.unusedBits] <;>
    decide

/-- Of a word that holds an instruction's fields: another word holds them too exactly when it differs in
unused bits only. -/
theorem hasFields_iff_sameOn {w w' : Word} {i : Instr} (h : HasFields w i) :
    HasFields w' i ↔ SameOn (~~~ i.unusedBits) w w' := by
  rw [← fieldsMask_fields, sameOn_fieldsMask]
  simp only [HasFields, List.forall_iff_forall_mem, HasField] at h ⊢
  exact forall₂_congr fun f hf => by rw [h f hf]

/-- Settles O4: a word, its instruction's encoding and every word like it off the unused bits hold the
same fields. -/
theorem onlyUnusedBitsAreIgnored : Obligations.OnlyUnusedBitsAreIgnored := by
  unfold Obligations.OnlyUnusedBitsAreIgnored
  refine ⟨fun w => ?_, fun w w' same => ?_⟩
  all_goals obtain ⟨wf, h⟩ := decode_sound w
  · exact (hasFields_iff_sameOn h).1 (hasFields_encode _)
  · exact decode_of_hasFields wf ((hasFields_iff_sameOn h).2 same)

end Sys2Proof.Proofs.UnusedBits
end

section
/-!
The instruction cycle (R90 to R98): what one step executes, by where `pc` points and by what the
console holds when that is 0xFE00, and what the step reports.
-/

namespace Sys2Proof.Proofs.Cycle

open Sys2Proof Sys2Proof.Machine Sys2Proof.Safety Sys2Proof.Laws Sys2Proof.Proofs.Shapes
open Sys2Proof.Proofs.StepKeeps Sys2Proof.Proofs.ReadsAndStores

/-! ### A fetch from 0xFE00 -/

/-- A step of a ready engine at 0xFE00 runs the word of a status read (R43, R91, D8). -/
theorem step_at_status {s : State} (hready : Ready s) (hpc : s.pc = kbsr) :
    step s = exec (decode s.readKbsr.1) { s.readKbsr.2 with pc := 0xFE01#16 } := by
  rw [step_ready hready, State.fetch, hpc, memRead_kbsr]
  rfl

/-- 0x8000 is an RTI, which faults with the whole word (R148, D1, D16). -/
theorem exec_decode_pendingWord (s : State) :
    exec (decode 0x8000#16) s = .next (s.raise (.illegalOpcode 0x8000#16)) := by
  have hdecode : decode 0x8000#16 = .rti 0#12 := by decide
  have hencode : encode (.rti 0#12) = 0x8000#16 := by decide
  rw [hdecode, exec, execRti, hencode]

/-- 0x0000 is a BR that tests for no flag, and so is never taken (R110, D1). -/
theorem exec_decode_noInputWord (s : State) : exec (decode 0x0000#16) s = .next s := by
  have hdecode : decode 0x0000#16 = .br false false false 0#9 := by decide
  have huntaken : branchTaken false false false s.cond = false := by cases s.cond <;> rfl
  simp [hdecode, exec, execBr, huntaken]

/-- The status read finds a character: the engine faults on the RTI. -/
theorem step_of_status_pending {s u : State} (hready : Ready s) (hpc : s.pc = kbsr)
    (hread : s.readKbsr = (0x8000#16, u)) :
    step s = .next ({ u with pc := 0xFE01#16 }.raise (.illegalOpcode 0x8000#16)) := by
  rw [step_at_status hready hpc, hread, exec_decode_pendingWord]

/-- The status read finds none: the engine goes past the BR. -/
theorem step_of_status_noInput {s u : State} (hready : Ready s) (hpc : s.pc = kbsr)
    (hread : s.readKbsr = (0x0000#16, u)) : step s = .next { u with pc := 0xFE01#16 } := by
  rw [step_at_status hready hpc, hread, exec_decode_noInputWord]

/-- Settles O17: the status read answers one of its two words, by what the console holds. -/
theorem fetchAtKeyboardStatus : Obligations.FetchAtKeyboardStatus := by
  unfold Obligations.FetchAtKeyboardStatus
  rintro s ⟨hrun, hhold⟩ hpc
  have hready : Ready s := ⟨hrun, hhold⟩
  refine ⟨fun b rest hp => ?_, fun hp hi => ?_, fun b rest hp hi => ?_⟩
  · exact step_of_status_pending hready hpc (readKbsr_of_pending hp)
  · exact step_of_status_noInput hready hpc (readKbsr_of_no_input hp hi)
  · rcases readKbsr_of_incoming hp hi with hread | hread
    · have hstaged := staged_write s ⟨[], rest, s.console.draws + 1⟩ b
      exact ⟨_, step_of_status_pending hready hpc hread, rfl, fun _ => rfl, rfl, rfl, hhold, rfl,
        .inl ⟨rfl, hstaged, rfl⟩⟩
    · exact ⟨_, step_of_status_noInput hready hpc hread, rfl, fun _ => rfl, rfl, rfl, hhold, hp,
        .inr ⟨hrun, fun _ => rfl, hi⟩⟩

/-! ### What a step reports -/

theorem outcome_eq_halted_iff (s : State) : s.outcome = .halted ↔ s.run = .halted := by
  unfold State.outcome
  split <;> simp [*]

theorem exists_outcome_eq_faulted_iff (s : State) :
    (∃ reason, s.outcome = .faulted reason) ↔ Failed s := by
  unfold State.outcome
  split <;> simp [Failed, *]

/-- A step that reports neither end of a run reports `Continue` (R95). -/
theorem outcome_eq_continue_iff (s : State) :
    s.outcome = .continue ↔ ¬ (s.run = .halted ∨ Failed s) := by
  unfold State.outcome
  split <;> simp [Failed, *]

/-- A step of a ready engine answers the next state of the instruction it fetches (R90, R92). -/
theorem exists_next_of_ready {s : State} (hready : Ready s) :
    ∃ t, step s = .next t ∧ exec (decode s.fetch.1) s.fetch.2 = .next t := by
  obtain ⟨t, hexec, -⟩ := exec_shape (decode s.fetch.1) s.fetch.2
  exact ⟨t, (step_ready hready).trans hexec, hexec⟩

/-- Settles O19: the outcome says how the instruction ended the run, and HALT and the illegal
instructions are those that end it. -/
theorem stepOutcomeByInstruction : Obligations.StepOutcomeByInstruction := by
  unfold Obligations.StepOutcomeByInstruction
  intro s hready
  obtain ⟨t, hstep, hexec⟩ := exists_next_of_ready hready
  obtain ⟨halts, fails⟩ := ends_of_exec (fetch_ready hready).1 hexec
  refine ⟨t, hstep, (outcome_eq_halted_iff t).trans halts,
    (exists_outcome_eq_faulted_iff t).trans fails, ?_⟩
  rw [outcome_eq_continue_iff, halts, fails]

/-! ### The other steps -/

/-- Settles O16: the fetch away from 0xFE00 is a plain read. -/
theorem stepRunsTheDecodedInstruction : Obligations.StepRunsTheDecodedInstruction := by
  unfold Obligations.StepRunsTheDecodedInstruction
  rintro s _ hready hpc rfl
  exact step_of_stored hready hpc

/-- Settles O18: `step` looks at `run` before it fetches. -/
theorem endedRunDoesNotStep : Obligations.EndedRunDoesNotStep :=
  fun _ hended => step_ended hended

/-- Settles O20: a step changes nothing, runs an instruction, or goes on with the one that is held. -/
theorem stepAlwaysAnswersNext : Obligations.StepAlwaysAnswersNext := by
  unfold Obligations.StepAlwaysAnswersNext
  intro s
  by_cases hrun : s.run = .running
  · by_cases hhold : s.hold = .idle
    · obtain ⟨t, hstep, -⟩ := exists_next_of_ready ⟨hrun, hhold⟩
      exact ⟨t, hstep⟩
    · exact ⟨s.resume, step_held hrun hhold⟩
  · exact ⟨s, step_ended hrun⟩

/-! ### A placed word -/

/-- No word is placed where a fetch would not find it (R43). -/
theorem placeAddr_ne_kbsr (s : State) : s.placeAddr ≠ kbsr := by
  unfold State.placeAddr
  split
  · decide
  · assumption

theorem withFetchWord_toNat (s : State) (ir : Word) : s.withFetchWord 16 ir.toNat = s.place ir := by
  rw [State.withFetchWord, BitVec.toNat_mod_cancel, BitVec.ofNat_toNat, BitVec.setWidth_eq]

/-- A placed word is run with the state as placing left it, `pc` past the fetch. -/
theorem step_place (s : State) (ir : Word) :
    step (s.place ir) = exec (decode ir) { s.place ir with pc := s.placeAddr + 1#16 } := by
  have hstep := step_of_stored (s := s.place ir) ⟨rfl, rfl⟩ (placeAddr_ne_kbsr s)
  simpa [State.place] using hstep

/-- Settles O21: the word is placed at `pc`, or at the start address when `pc` is 0xFE00. -/
theorem placedWordRunsNext : Obligations.PlacedWordRunsNext := by
  unfold Obligations.PlacedWordRunsNext
  intro s ir
  rw [withFetchWord_toNat, step_place, State.place]
  refine ⟨fun hpc => ?_, fun hpc => ?_⟩
  · have haddr : s.placeAddr = s.pc := if_neg hpc
    rw [haddr]
  · have haddr : s.placeAddr = 0x3000#16 := if_pos hpc
    rw [haddr]
    rfl

end Sys2Proof.Proofs.Cycle
end

section
/-!
The operate instructions (R100 to R105): each ends in the write of a result, so its frame and its flag
are those of `setResult` and only the value is its own.
-/

namespace Sys2Proof.Proofs.Operate

open Sys2Proof Sys2Proof.Machine Sys2Proof.Safety Sys2Proof.Laws Sys2Proof.Proofs.Flags

/-! ### What each instruction makes of the state -/

section
variable (dr sr1 sr2 : Reg) (imm5 : BitVec 5) (s : State)

theorem exec_addReg :
    exec (.addReg dr sr1 sr2) s = .next (s.setResult dr (s.reg sr1 + s.reg sr2)) := rfl

theorem exec_addImm :
    exec (.addImm dr sr1 imm5) s = .next (s.setResult dr (s.reg sr1 + sext imm5)) := rfl

theorem exec_andReg :
    exec (.andReg dr sr1 sr2) s = .next (s.setResult dr (s.reg sr1 &&& s.reg sr2)) := rfl

theorem exec_andImm :
    exec (.andImm dr sr1 imm5) s = .next (s.setResult dr (s.reg sr1 &&& sext imm5)) := rfl

theorem exec_notReg : exec (.notReg dr sr1) s = .next (s.setResult dr (~~~ s.reg sr1)) := rfl

end

/-- Writing a result sets the flag from it and changes nothing else (R28, R36). -/
theorem results_setResult (s : State) (dr : Reg) (v : Word) : Results s (s.setResult dr v) dr v := by
  have same : (s.setResult dr v).reg dr = v := by simp
  have others : RegsExcept dr s (s.setResult dr v) := fun r hr => by simp [hr.symm]
  exact ⟨same, others, flagOf_ccOf v, rfl, fun _ => rfl, rfl, rfl, rfl, rfl⟩

/-! ### The obligations -/

/-- Settles O22: addition of words is addition modulo 65536. -/
theorem addGivesTheWrappedSum : Obligations.AddGivesTheWrappedSum := by
  unfold Obligations.AddGivesTheWrappedSum
  intro dr sr1 sr2 imm5 s
  exact ⟨⟨_, _, exec_addReg dr sr1 sr2 s, results_setResult .., BitVec.toNat_add ..⟩,
    ⟨_, _, exec_addImm dr sr1 imm5 s, results_setResult .., BitVec.toNat_add ..⟩⟩

/-- Settles O23: bit `k` of the result is the conjunction of the operands' bits `k`. -/
theorem andWorksBitByBit : Obligations.AndWorksBitByBit := by
  unfold Obligations.AndWorksBitByBit
  intro dr sr1 sr2 imm5 s
  exact ⟨⟨_, _, exec_andReg dr sr1 sr2 s, results_setResult .., fun _ => BitVec.getLsbD_and⟩,
    ⟨_, _, exec_andImm dr sr1 imm5 s, results_setResult .., fun _ => BitVec.getLsbD_and⟩⟩

/-- Every bit is inverted, bit 0 among them, so no word is its own complement. -/
theorem not_ne_self (v : Word) : ~~~ v ≠ v := by
  intro h
  have hbit : (~~~ v).getLsbD 0 = v.getLsbD 0 := congrArg (BitVec.getLsbD · 0) h
  simp at hbit

/-- Settles O24: the complement of a word is its distance from 0xFFFF. -/
theorem notInvertsEveryBit : Obligations.NotInvertsEveryBit := by
  unfold Obligations.NotInvertsEveryBit
  intro dr sr s
  exact ⟨_, _, exec_notReg dr sr s, results_setResult .., BitVec.toNat_not, not_ne_self _⟩

/-- Settles O25: the two forms write the same sum to the same register. -/
theorem addFormsAgree : Obligations.AddFormsAgree := by
  unfold Obligations.AddFormsAgree
  intro dr sr1 sr2 imm5 s operand
  rw [exec_addReg, exec_addImm, operand, sext]

end Sys2Proof.Proofs.Operate
end

section
/-!
Control transfer (R110 to R113): a taken branch and a jump write `pc` alone, a call writes the link
first and then `pc`; each obligation adds which target `pc` takes.
-/

namespace Sys2Proof.Proofs.Control

open Sys2Proof Sys2Proof.Machine Sys2Proof.Safety Sys2Proof.Laws

/-! ### What each instruction makes of the state -/

section
variable (n z p : Bool) (off9 : BitVec 9) (off11 : BitVec 11) (baseR : Reg) (s : State)

theorem exec_br : exec (.br n z p off9) s =
    .next (if branchTaken n z p s.cond then s.jumpTo (s.pcRel off9) else s) := rfl

theorem exec_jmp : exec (.jmp baseR) s = .next (s.jumpTo (s.reg baseR)) := rfl

theorem exec_jsr : exec (.jsr off11) s = .next (s.link.jumpTo (s.pcRel off11)) := rfl

theorem exec_jsrr : exec (.jsrr baseR) s = .next (s.link.jumpTo (s.link.reg baseR)) := rfl

end

/-- BR's test, read as R110 words it: a bit is requested whose flag is the one that is set. -/
theorem branchTaken_iff (n z p : Bool) (c : Cond) : branchTaken n z p c = true ↔
    (n = true ∧ c = .n) ∨ (z = true ∧ c = .z) ∨ (p = true ∧ c = .p) := by
  cases c <;> simp [branchTaken]

theorem onlyPc_refl (s : State) : OnlyPc s s :=
  ⟨fun _ => rfl, rfl, fun _ => rfl, rfl, rfl, rfl, rfl⟩

theorem onlyPc_jumpTo (s : State) (v : Word) : OnlyPc s (s.jumpTo v) :=
  ⟨fun _ => rfl, rfl, fun _ => rfl, rfl, rfl, rfl, rfl⟩

theorem reg_seven_link (s : State) : s.link.reg 7 = s.pc := by simp

theorem reg_link_of_ne {r : Reg} (hr : r ≠ 7) (s : State) : s.link.reg r = s.reg r := by
  simp [hr.symm]

/-- A call changes R7 and `pc` only (R112, R113). -/
theorem link_jumpTo_frame (s : State) (v : Word) :
    RegsExcept 7 s (s.link.jumpTo v) ∧ (s.link.jumpTo v).cond = s.cond ∧
      SameMem s (s.link.jumpTo v) ∧ SameWorld s (s.link.jumpTo v) :=
  ⟨fun _ hr => reg_link_of_ne hr s, rfl, fun _ => rfl, rfl, rfl, rfl, rfl⟩

/-! ### The obligations -/

/-- Settles O26: a taken branch is a jump, and one that is not taken leaves the state as it is. -/
theorem branchTakenOnMatchingFlag : Obligations.BranchTakenOnMatchingFlag := by
  unfold Obligations.BranchTakenOnMatchingFlag
  intro n z p off9 s taken
  refine ⟨_, exec_br n z p off9 s, ?_⟩
  have htest : branchTaken n z p s.cond = true ↔ taken := branchTaken_iff n z p s.cond
  by_cases h : taken
  · rw [if_pos (htest.2 h)]
    exact ⟨onlyPc_jumpTo s _, fun _ => rfl, fun untaken => absurd h untaken⟩
  · rw [if_neg (mt htest.1 h)]
    exact ⟨onlyPc_refl s, fun h' => absurd h' h, fun _ => rfl⟩

/-- Settles O27: JMP is a jump to the base register's value. -/
theorem jumpGoesToTheBaseRegister : Obligations.JumpGoesToTheBaseRegister := by
  unfold Obligations.JumpGoesToTheBaseRegister
  intro baseR s
  exact ⟨_, exec_jmp baseR s, onlyPc_jumpTo s _, jumpTo_pc s _⟩

/-- Settles O28: the link leaves `pc` alone, so the target is relative to the address it saved. -/
theorem jsrLinksAndJumps : Obligations.JsrLinksAndJumps := by
  unfold Obligations.JsrLinksAndJumps
  intro off11 s
  exact ⟨_, exec_jsr off11 s, reg_seven_link s, jumpTo_pc .., link_jumpTo_frame s _⟩

/-- Settles O29: the base register is read after the link, which R7 alone can see. -/
theorem jsrrLinksBeforeItReads : Obligations.JsrrLinksBeforeItReads := by
  unfold Obligations.JsrrLinksBeforeItReads
  intro baseR s
  refine ⟨_, exec_jsrr baseR s, reg_seven_link s, fun hbase => ?_, fun hbase => ?_,
    link_jumpTo_frame s _⟩
  · exact reg_link_of_ne hbase s
  · rw [jumpTo_pc, hbase, reg_seven_link]

end Sys2Proof.Proofs.Control
end

section
/-!
Loads and stores (R120 to R128): a chain of reads of memory that ends in the write of a result or in a
store. What each part does is settled by O14, by O11 and by `results_setResult`; an instruction adds
its addresses and the order of its parts.
-/

namespace Sys2Proof.Proofs.LoadStore

open Sys2Proof Sys2Proof.Machine Sys2Proof.Safety Sys2Proof.Laws
open Sys2Proof.Proofs.ReadsAndStores Sys2Proof.Proofs.Operate

/-! ### What each instruction makes of the state -/

/-- A read of memory and the write of its word as a result: how LD, LDI and LDR end. -/
def load (s : State) (dr : Reg) (a : Word) : State := (s.memRead a).2.setResult dr (s.memRead a).1

section
variable (dr sr baseR : Reg) (off9 : BitVec 9) (off6 : BitVec 6) (s : State)

theorem exec_ld : exec (.ld dr off9) s = .next (load s dr (s.pcRel off9)) := rfl

theorem exec_ldi : exec (.ldi dr off9) s =
    .next (load (s.memRead (s.pcRel off9)).2 dr (s.memRead (s.pcRel off9)).1) := rfl

theorem exec_ldr : exec (.ldr dr baseR off6) s = .next (load s dr (s.baseOff baseR off6)) := rfl

theorem exec_lea : exec (.lea dr off9) s = .next (s.setResult dr (s.pcRel off9)) := rfl

theorem exec_st : exec (.st sr off9) s = .next (s.memWrite (s.pcRel off9) (s.reg sr)) := rfl

/-- The read of the pointer changes no register, so STI stores what the register held before it. -/
theorem exec_sti : exec (.sti sr off9) s = .next
    ((s.memRead (s.pcRel off9)).2.memWrite (s.memRead (s.pcRel off9)).1 (s.reg sr)) := by
  rw [exec, execSti, reg_memRead]

theorem exec_str : exec (.str sr baseR off6) s =
    .next (s.memWrite (s.baseOff baseR off6) (s.reg sr)) := rfl

end

/-- A load is one read, in the sense of R42 and R43, and then the result it gives (R28). -/
theorem reads_results_load (s : State) (dr : Reg) (a : Word) :
    ∃ m v, Reads s m a v ∧ Results m (load s dr a) dr v :=
  ⟨_, _, everyReadFollowsTheContract s a, results_setResult ..⟩

/-! ### The obligations -/

/-- Settles O30: LD is a load at `pc + off9`. -/
theorem ldLoadsPcRelative : Obligations.LdLoadsPcRelative := by
  unfold Obligations.LdLoadsPcRelative
  intro dr off9 s
  obtain ⟨m, v, reads, results⟩ := reads_results_load s dr (s.pcRel off9)
  exact ⟨_, m, v, exec_ld dr off9 s, reads, results⟩

/-- Settles O31: LDI is a load at the pointer, from the state that the pointer's read leaves. -/
theorem ldiFollowsThePointer : Obligations.LdiFollowsThePointer := by
  unfold Obligations.LdiFollowsThePointer
  intro dr off9 s
  have pointer := everyReadFollowsTheContract s (s.pcRel off9)
  obtain ⟨m, v, reads, results⟩ :=
    reads_results_load (s.memRead (s.pcRel off9)).2 dr (s.memRead (s.pcRel off9)).1
  exact ⟨_, _, m, _, v, exec_ldi dr off9 s, pointer, reads, results⟩

/-- Settles O32: LDR is a load at the old base register plus the offset, even where DR is the base. -/
theorem ldrLoadsBaseOffset : Obligations.LdrLoadsBaseOffset := by
  unfold Obligations.LdrLoadsBaseOffset
  intro dr baseR off6 s
  obtain ⟨m, v, reads, results⟩ := reads_results_load s dr (s.baseOff baseR off6)
  exact ⟨_, m, v, exec_ldr dr baseR off6 s, reads, results⟩

/-- Settles O33: LEA writes the address as its result, and makes no read. -/
theorem leaGivesTheAddress : Obligations.LeaGivesTheAddress := by
  unfold Obligations.LeaGivesTheAddress
  intro dr off9 s
  exact ⟨_, exec_lea dr off9 s, results_setResult s dr (s.pcRel off9)⟩

/-- Settles O34: ST is one store. -/
theorem stStoresPcRelative : Obligations.StStoresPcRelative := by
  unfold Obligations.StStoresPcRelative
  intro sr off9 s
  exact ⟨_, exec_st sr off9 s, storeWritesItsCellOnly s (s.pcRel off9) (s.reg sr)⟩

/-- Settles O35: STI is one store, made in the state that the pointer's read leaves. -/
theorem stiStoresThroughThePointer : Obligations.StiStoresThroughThePointer := by
  unfold Obligations.StiStoresThroughThePointer
  intro sr off9 s
  have pointer := everyReadFollowsTheContract s (s.pcRel off9)
  exact ⟨_, _, _, exec_sti sr off9 s, pointer, storeWritesItsCellOnly ..⟩

/-- Settles O36: STR is one store. -/
theorem strStoresBaseOffset : Obligations.StrStoresBaseOffset := by
  unfold Obligations.StrStoresBaseOffset
  intro sr baseR off6 s
  exact ⟨_, exec_str sr baseR off6 s, storeWritesItsCellOnly s (s.baseOff baseR off6) (s.reg sr)⟩

end Sys2Proof.Proofs.LoadStore
end

section
/-!
The faults of TRAP, RTI and RES (R147 to R149, R163). These instructions have no unused bit, so the
word that holds an instruction's fields is the encoder's, and the reason carries the word that was
fetched.
-/

namespace Sys2Proof.Proofs.Faults

open Sys2Proof Sys2Proof.Machine Sys2Proof.Safety
open Sys2Proof.Proofs.Fields Sys2Proof.Proofs.UnusedBits

/-- An instruction with no unused bit is held by one word only, the encoder's. -/
theorem encode_eq_of_hasFields {w : Word} {i : Instr} (full : i.unusedBits = 0x0000#16)
    (h : HasFields w i) : encode i = w := by
  have same := (hasFields_iff_sameOn h).1 (hasFields_encode i)
  have all : ~~~ (0x0000#16) = BitVec.allOnes 16 := rfl
  simpa only [SameOn, full, all, BitVec.and_allOnes] using same

/-- RTI and RES fault with the word that holds their fields. -/
theorem exec_illegalOpcode {w : Word} {i : Instr} (kind : isIllegalOpcode i = true)
    (h : HasFields w i) (s : State) : exec i s = .next (s.raise (.illegalOpcode w)) := by
  cases i with
  | rti | res =>
    rw [← encode_eq_of_hasFields rfl h]
    rfl
  | _ => simp [isIllegalOpcode] at kind

/-- TRAP with an unrecognised vector faults with the word that holds its fields. -/
theorem exec_badVector {w : Word} {i : Instr} (kind : isBadVector i = true)
    (h : HasFields w i) (s : State) : exec i s = .next (s.raise (.illegalTrapVector w)) := by
  cases i with
  | trapVec00To1F | trapVec26To27 | trapVec28To2F | trapVec30To3F | trapVec40To7F | trapVec80ToFF =>
    rw [← encode_eq_of_hasFields rfl h]
    rfl
  | _ => simp [isBadVector] at kind

theorem isIllegalOpcode_decode {w : Word} (op : opcodeOf w = 0x8#4 ∨ opcodeOf w = 0xD#4) :
    isIllegalOpcode (decode w) = true := by
  rcases op with op | op <;> simp [decode, op, isIllegalOpcode]

/-- An opcode put before the twelve bits below it is a word with those two fields. -/
theorem hasFields_of_append {i : Instr} {op : BitVec 4} {low12 : BitVec 12}
    (h : fields i = [.opcode op, .low low12]) : HasFields (op ++ low12) i := by
  rw [HasFields, h]
  exact ⟨BitVec.extractLsb'_append_eq_left, BitVec.extractLsb'_append_eq_right⟩

/-- Opcode, ignored bits and vector put one after the other are a word with those three fields. -/
theorem hasFields_of_append_vector {i : Instr} {op hi4 : BitVec 4} {vec : Byte}
    (h : fields i = [.opcode op, ⟨8, 4, hi4⟩, .low vec]) : HasFields (op ++ hi4 ++ vec) i := by
  rw [HasFields, h]
  have above (lo : Nat) (hlo : 8 ≤ lo) :
      slice (op ++ hi4 ++ vec) lo 4 = (op ++ hi4).extractLsb' (lo - 8) 4 :=
    BitVec.extractLsb'_append_eq_of_le hlo
  exact ⟨(above 12 (by decide)).trans BitVec.extractLsb'_append_eq_left,
    (above 8 (by decide)).trans BitVec.extractLsb'_append_eq_right,
    BitVec.extractLsb'_append_eq_right⟩

/-- Settles O47: the word put together from opcode and low bits, and a fetched word, both hold the
fields of the instruction that faults. -/
theorem illegalOpcodesFault : Obligations.IllegalOpcodesFault := by
  unfold Obligations.IllegalOpcodesFault
  refine ⟨fun low12 s => ⟨?_, ?_⟩, fun w s op => ?_⟩
  · exact exec_illegalOpcode rfl (hasFields_of_append rfl) s
  · exact exec_illegalOpcode rfl (hasFields_of_append rfl) s
  · exact exec_illegalOpcode (isIllegalOpcode_decode op) (decode_sound w).2 s

/-- Settles O48: as for the illegal opcodes, with the vector's range in place of the opcode. -/
theorem unrecognisedVectorsFault : Obligations.UnrecognisedVectorsFault := by
  unfold Obligations.UnrecognisedVectorsFault
  refine ⟨fun hi4 vec s => ?_, fun w s op range => ?_⟩
  · have fault {i : Instr} (kind : isBadVector i = true)
        (h : fields i = [.opcode 0xF#4, ⟨8, 4, hi4⟩, .low vec]) :=
      exec_badVector kind (hasFields_of_append_vector h) s
    exact ⟨fault rfl rfl, fault rfl rfl, fault rfl rfl, fault rfl rfl, fault rfl rfl, fault rfl rfl⟩
  · exact exec_badVector (isBadVector_decode op range) (decode_sound w).2 s

end Sys2Proof.Proofs.Faults
end

section
/-!
GETC, OUT, IN and HALT (R141, R142, R144, R146, R151). The two that read end in the same way: the
first character of the input goes to R0, zero-extended, or the routine is held. IN differs from GETC
by what it writes before that.
-/

namespace Sys2Proof.Proofs.CharacterTraps

open Sys2Proof Sys2Proof.Machine Sys2Proof.Safety Sys2Proof.Laws
open Sys2Proof.Proofs.Extension Sys2Proof.Proofs.Shapes

section
variable (s : State)

theorem exec_trapGetc : exec .trapGetc s = .next s.getcRead := rfl

theorem exec_trapOut : exec .trapOut s = .next (s.consoleWrite (lowByte (s.reg 0))) := rfl

theorem exec_trapIn : exec .trapIn s = .next (s.consoleWriteAll Config.inPrompt).inRead := rfl

theorem exec_trapHalt :
    exec .trapHalt s = .next { s.consoleWriteAll Config.haltNotice with run := .halted } := rfl

end

/-! ### The read -/

/-- `t` is `s` once a read has completed that found `b` at the head of the input and left `rest`. -/
structure Delivered (s t : State) (b : Byte) (rest : List Byte) : Prop where
  r0 : t.reg 0 = 0x00#8 ++ b
  input : t.console.pending ++ t.console.incoming = rest
  regs : RegsExcept 0 s t
  pc : t.pc = s.pc
  cond : t.cond = s.cond
  mem : SameMem s t
  run : t.run = s.run
  out : t.out = s.out
  hold : t.hold = .idle

theorem delivered_setReg (s : State) (c : Console) (b : Byte) :
    Delivered s ({ s with console := c, hold := .idle }.setReg 0 (zext8 b)) b
      (c.pending ++ c.incoming) where
  r0 := by rw [reg_setReg, if_pos rfl, zext8_eq_append]
  input := rfl
  regs r hr := by rw [reg_setReg, if_neg hr.symm]; rfl
  pc := rfl
  cond := rfl
  mem _ := rfl
  run := rfl
  out := rfl
  hold := rfl

section
variable {s : State} {b : Byte} {rest : List Byte}

theorem delivered_getcRead (h : s.console.pending ++ s.console.incoming = b :: rest) :
    Delivered s s.getcRead b rest := by
  rcases getcRead_cases s with ⟨hp, hi, -⟩ | ⟨b', c, e, hinput⟩
  · simp [hp, hi] at h
  · obtain ⟨rfl, rfl⟩ := List.cons.inj (h.symm.trans hinput)
    exact e ▸ delivered_setReg s c b

/-- IN's read echoes the character before it stores it (D12). -/
theorem delivered_inRead (h : s.console.pending ++ s.console.incoming = b :: rest) :
    Delivered (s.consoleWrite b) s.inRead b rest := by
  rcases inRead_cases s with ⟨hp, hi, -⟩ | ⟨b', c, e, hinput⟩
  · simp [hp, hi] at h
  · obtain ⟨rfl, rfl⟩ := List.cons.inj (h.symm.trans hinput)
    exact e ▸ delivered_setReg (s.consoleWrite b) c b

theorem getcRead_of_no_input (hp : s.console.pending = []) (hi : s.console.incoming = []) :
    s.getcRead = { s with hold := .getc } := by
  rcases getcRead_cases s with ⟨-, -, e⟩ | ⟨b, c, -, hinput⟩
  · exact e
  · simp [hp, hi] at hinput

theorem inRead_of_no_input (hp : s.console.pending = []) (hi : s.console.incoming = []) :
    s.inRead = { s with hold := .inp } := by
  rcases inRead_cases s with ⟨-, -, e⟩ | ⟨b, c, -, hinput⟩
  · exact e
  · simp [hp, hi] at hinput

end

/-! ### A held read goes on (R94, R151) -/

section
variable {s : State} (hrun : s.run = .running)
include hrun

theorem step_of_hold_getc (hhold : s.hold = .getc) : step s = .next s.getcRead := by
  rw [step_held hrun (by simp [hhold]), State.resume, hhold]

theorem step_of_hold_inp (hhold : s.hold = .inp) : step s = .next s.inRead := by
  rw [step_held hrun (by simp [hhold]), State.resume, hhold]

/-- With no input a held read is held again, in the same state. -/
theorem step_of_hold_of_no_input (hhold : s.hold = .getc ∨ s.hold = .inp)
    (hp : s.console.pending = []) (hi : s.console.incoming = []) : step s = .next s := by
  rcases hhold with hhold | hhold
  · rw [step_of_hold_getc hrun hhold, getcRead_of_no_input hp hi, ← hhold]
  · rw [step_of_hold_inp hrun hhold, inRead_of_no_input hp hi, ← hhold]

end

/-! ### The obligations -/

/-- Settles O38: GETC is its read. -/
theorem getcReadsOneCharacter : Obligations.GetcReadsOneCharacter := by
  unfold Obligations.GetcReadsOneCharacter
  intro s b rest h
  obtain ⟨r0, input, regs, pc, cond, mem, run, out, hold⟩ := delivered_getcRead h
  exact ⟨_, exec_trapGetc s, r0, input, regs, pc, cond, mem, run, out, hold⟩

/-- Settles O39: OUT is one write to the console. -/
theorem outWritesTheLowByte : Obligations.OutWritesTheLowByte := by
  unfold Obligations.OutWritesTheLowByte
  exact exec_trapOut

/-- Settles O42: IN is its prompt, which takes no input, and its read. -/
theorem inPromptsReadsAndEchoes : Obligations.InPromptsReadsAndEchoes := by
  unfold Obligations.InPromptsReadsAndEchoes
  intro s b rest h
  obtain ⟨r0, input, regs, pc, cond, mem, run, out, hold⟩ :=
    delivered_inRead (s := s.consoleWriteAll Config.inPrompt) h
  exact ⟨_, exec_trapIn s, out, r0, input, regs, pc, cond, mem, run, hold⟩

/-- Settles O43: the first step of each trap and every later one make the same read, which waits
without input and completes with it. -/
theorem getcAndInWaitForInput : Obligations.GetcAndInWaitForInput := by
  unfold Obligations.GetcAndInWaitForInput
  refine ⟨fun s hp hi => ⟨?_, ?_⟩, fun s hrun hhold =>
    ⟨step_of_hold_of_no_input hrun hhold, fun b rest h => ?_⟩⟩
  · rw [exec_trapGetc, getcRead_of_no_input hp hi]
  · exact (exec_trapIn s).trans
      (congrArg _ (inRead_of_no_input (s := s.consoleWriteAll Config.inPrompt) hp hi))
  · rcases hhold with hhold | hhold
    · obtain ⟨r0, input, regs, pc, cond, mem, run, out, hold⟩ := delivered_getcRead h
      exact ⟨_, step_of_hold_getc hrun hhold, r0, input, hold, fun _ => out,
        fun e => by simp [hhold] at e, regs, pc, cond, mem, run⟩
    · obtain ⟨r0, input, regs, pc, cond, mem, run, out, hold⟩ := delivered_inRead h
      exact ⟨_, step_of_hold_inp hrun hhold, r0, input, hold, fun e => by simp [hhold] at e,
        fun _ => out, regs, pc, cond, mem, run⟩

/-- Settles O46: HALT is one write of its notice and the end of the run. -/
theorem haltWritesItsNoticeAndStops : Obligations.HaltWritesItsNoticeAndStops := by
  unfold Obligations.HaltWritesItsNoticeAndStops
  exact exec_trapHalt

end Sys2Proof.Proofs.CharacterTraps
end

section
/-!
The string routines PUTS and PUTSP (R143, R145). Both loops write out one word after another as long
as they read no terminator; which bytes a word gives and which words end the string is all that tells
them apart. A loop that was cut off after a lap goes on where it stopped (log 13).
-/

namespace Sys2Proof.Proofs.Strings

open Sys2Proof Sys2Proof.Machine Sys2Proof.Safety Sys2Proof.Laws Sys2Proof.Proofs.Shapes

theorem exec_trapPuts (s : State) : exec .trapPuts s = .next (putsLoop lap (s.reg 0) s) := rfl

theorem exec_trapPutsp (s : State) : exec .trapPutsp s = .next (putspLoop lap (s.reg 0) s) := rfl

/-! ### One word of a loop -/

section
variable {s : State} {a : Word} (n : Nat)

theorem putsLoop_of_zero (h : (s.memRead a).1 = 0x0000#16) :
    putsLoop (n + 1) a s = { (s.memRead a).2 with hold := .idle } := by
  simp only [putsLoop, h, if_true]

theorem putsLoop_of_ne_zero (h : (s.memRead a).1 ≠ 0x0000#16) :
    putsLoop (n + 1) a s =
      putsLoop n (a + 1#16) ((s.memRead a).2.consoleWrite (lowByte (s.memRead a).1)) := by
  simp only [putsLoop, h, if_false]

theorem putspLoop_of_low_zero (h : lowByte (s.memRead a).1 = 0x00#8) :
    putspLoop (n + 1) a s = { (s.memRead a).2 with hold := .idle } := by
  simp only [putspLoop, h, if_true]

theorem putspLoop_of_high_zero (hlow : lowByte (s.memRead a).1 ≠ 0x00#8)
    (hhigh : highByte (s.memRead a).1 = 0x00#8) :
    putspLoop (n + 1) a s =
      { (s.memRead a).2.consoleWrite (lowByte (s.memRead a).1) with hold := .idle } := by
  simp only [putspLoop, hlow, hhigh, if_true, if_false]

theorem putspLoop_of_ne_zero (hlow : lowByte (s.memRead a).1 ≠ 0x00#8)
    (hhigh : highByte (s.memRead a).1 ≠ 0x00#8) :
    putspLoop (n + 1) a s = putspLoop n (a + 1#16)
      (((s.memRead a).2.consoleWrite (lowByte (s.memRead a).1)).consoleWrite
        (highByte (s.memRead a).1)) := by
  simp only [putspLoop, hlow, hhigh, if_false]

end

/-! ### The terminator in a cell away from 0xFE00 -/

section
variable {s : State} {a : Word} (n : Nat) (ha : a ≠ kbsr)
include ha

theorem putsLoop_of_plain_zero (h : s.mem.read a = 0x0000#16) :
    putsLoop (n + 1) a s = { s with hold := .idle } := by
  rw [putsLoop_of_zero n (by rwa [memRead_of_ne ha]), memRead_of_ne ha]

theorem putspLoop_of_plain_low_zero (h : lowByte (s.mem.read a) = 0x00#8) :
    putspLoop (n + 1) a s = { s with hold := .idle } := by
  rw [putspLoop_of_low_zero n (by rwa [memRead_of_ne ha]), memRead_of_ne ha]

theorem putspLoop_of_plain_high_zero (hlow : lowByte (s.mem.read a) ≠ 0x00#8)
    (hhigh : highByte (s.mem.read a) = 0x00#8) :
    putspLoop (n + 1) a s = { s.consoleWrite (lowByte (s.mem.read a)) with hold := .idle } := by
  rw [putspLoop_of_high_zero n (by rwa [memRead_of_ne ha]) (by rwa [memRead_of_ne ha]),
    memRead_of_ne ha]

end

/-! ### A string of words away from 0xFE00 -/

/-- A loop that goes on past every word of a plain cell which is `inside` a string, after writing the
word's `bytes`. -/
def WritesWords (loop : Nat → Word → State → State) (inside : Word → Prop)
    (bytes : Word → List Byte) : Prop :=
  ∀ (n : Nat) (a : Word) (s : State), a ≠ kbsr → inside (s.mem.read a) →
    loop (n + 1) a s = loop n (a + 1#16) (s.consoleWriteAll (bytes (s.mem.read a)))

theorem putsLoop_writesWords : WritesWords putsLoop (· ≠ 0x0000#16) fun w => [lowByte w] := by
  intro n a s ha hw
  have read := memRead_of_ne (s := s) ha
  rw [putsLoop_of_ne_zero n (by rwa [read]), read]
  rfl

theorem putspLoop_writesWords : WritesWords putspLoop
    (fun w => lowByte w ≠ 0x00#8 ∧ highByte w ≠ 0x00#8) fun w => [lowByte w, highByte w] := by
  rintro n a s ha ⟨hlow, hhigh⟩
  have read := memRead_of_ne (s := s) ha
  rw [putspLoop_of_ne_zero n (by rwa [read]) (by rwa [read]), read]
  simp [State.consoleWrite, State.consoleWriteAll]

theorem wordsFrom_succ (s : State) (a : Word) (n : Nat) :
    wordsFrom s a (n + 1) = wordsFrom s a n ++ [s.mem.read (a + BitVec.ofNat 16 n)] := by
  simp [wordsFrom, List.range_succ]

/-- Such a loop writes a whole string out, word by word, and stands at the word after it. -/
theorem WritesWords.string {loop : Nat → Word → State → State} {inside : Word → Prop}
    {bytes : Word → List Byte} (writes : WritesWords loop inside bytes) (s : State) (a : Word)
    {n : Nat} (plain : ∀ k, k < n → a + BitVec.ofNat 16 k ≠ kbsr)
    (words : ∀ k, k < n → inside (s.mem.read (a + BitVec.ofNat 16 k))) (m : Nat) :
    loop (n + m) a s =
      loop m (a + BitVec.ofNat 16 n) (s.consoleWriteAll ((wordsFrom s a n).flatMap bytes)) := by
  induction n generalizing m with
  | zero => simp [wordsFrom, State.consoleWriteAll]
  | succ n ih =>
    have here := ih (fun k hk => plain k (by omega)) (fun k hk => words k (by omega)) (m + 1)
    have next : a + BitVec.ofNat 16 n + 1#16 = a + BitVec.ofNat 16 (n + 1) := by
      rw [BitVec.ofNat_add, BitVec.add_assoc]
    rw [show n + 1 + m = n + (m + 1) by omega, here,
      writes m _ (s.consoleWriteAll _) (plain n (by omega)) (words n (by omega)), next,
      wordsFrom_succ]
    simp [State.consoleWriteAll]

/-- The addresses of a string wrap (D14), so a string of a lap or more would run over 0xFE00. -/
theorem lt_lap_of_plain {a : Word} {n : Nat} (plain : ∀ k, k ≤ n → a + BitVec.ofNat 16 k ≠ kbsr) :
    n < lap := by
  have short : n < (kbsr - a).toNat := by
    by_contra long
    refine plain _ (not_lt.1 long) ?_
    rw [BitVec.ofNat_toNat, BitVec.setWidth_eq, BitVec.add_comm, BitVec.sub_add_cancel]
  exact short.trans (kbsr - a).isLt

/-- A lap begins with the string and has a read left for the word after it. -/
theorem exists_lap_eq {a : Word} {n : Nat} (plain : ∀ k, k ≤ n → a + BitVec.ofNat 16 k ≠ kbsr) :
    ∃ m, lap = n + (m + 1) :=
  Nat.exists_eq_add_of_lt (lt_lap_of_plain plain)

/-- Settles O40: the string's words are written, and the zero word after them ends the loop. -/
theorem putsWritesTheString : Obligations.PutsWritesTheString := by
  unfold Obligations.PutsWritesTheString
  intro s n plain words last
  obtain ⟨m, hm⟩ := exists_lap_eq plain
  rw [exec_trapPuts, hm, putsLoop_writesWords.string s _ (fun k hk => plain k hk.le) words,
    putsLoop_of_plain_zero (s := s.consoleWriteAll _) m (plain n le_rfl) last, List.map_eq_flatMap]
  rfl

/-- Settles O44: the string's words are written, and the word after them ends the loop before its low
byte or before its high byte. -/
theorem putspWritesThePackedString : Obligations.PutspWritesThePackedString := by
  unfold Obligations.PutspWritesThePackedString
  intro s n last body plain words
  obtain ⟨m, hm⟩ := exists_lap_eq plain
  have written : exec .trapPutsp s =
      .next (putspLoop (m + 1) (s.reg 0 + BitVec.ofNat 16 n) (s.consoleWriteAll body)) := by
    rw [exec_trapPutsp, hm]
    exact congrArg _ (putspLoop_writesWords.string s _ (fun k hk => plain k hk.le) words (m + 1))
  refine ⟨fun hlow => written.trans ?_, fun hlow hhigh => written.trans ?_⟩
  · exact congrArg _
      (putspLoop_of_plain_low_zero (s := s.consoleWriteAll body) m (plain n le_rfl) hlow)
  · exact congrArg _
      (putspLoop_of_plain_high_zero (s := s.consoleWriteAll body) m (plain n le_rfl) hlow hhigh)

/-! ### PUTSP ends at 0xFE00 at the latest -/

theorem lowByte_memRead_kbsr (s : State) : lowByte (s.memRead kbsr).1 = 0x00#8 := by
  rw [memRead_kbsr]
  rcases readKbsr_cases s with ⟨c, e, -⟩ | ⟨b, c, e, -⟩ <;> simp [e, lowByte]

/-- Each word read brings a loop one address nearer to 0xFE00. -/
theorem distance_succ {a : Word} (ha : a ≠ kbsr) :
    (kbsr - (a + 1#16)).toNat + 1 = (kbsr - a).toNat := by
  simp only [kbsr] at ha ⊢
  bv_omega

/-- A loop that may read as many words as it takes to come to 0xFE00 ends. -/
theorem putspLoop_hold {n : Nat} {a : Word} (far : (kbsr - a).toNat < n) (s : State) :
    (putspLoop n a s).hold = .idle := by
  induction n generalizing a s with
  | zero => omega
  | succ n ih =>
    by_cases hlow : lowByte (s.memRead a).1 = 0x00#8
    · rw [putspLoop_of_low_zero n hlow]
    · by_cases hhigh : highByte (s.memRead a).1 = 0x00#8
      · rw [putspLoop_of_high_zero n hlow hhigh]
      · have ha : a ≠ kbsr := by
          rintro rfl
          exact hlow (lowByte_memRead_kbsr s)
        rw [putspLoop_of_ne_zero n hlow hhigh]
        exact ih (by have := distance_succ ha; omega) _

/-- Settles O45: within a lap the loop comes to 0xFE00; the rest is the frame of the loop. -/
theorem putspAlwaysCompletes : Obligations.PutspAlwaysCompletes := by
  unfold Obligations.PutspAlwaysCompletes
  intro s
  obtain ⟨frame, regs⟩ := putspLoop_frame lap (s.reg 0) s
  exact ⟨_, exec_trapPutsp s, putspLoop_hold (kbsr - s.reg 0).isLt s, frame.run, reg_congr regs,
    frame.pc, frame.cond, frame.mem, frame.out⟩

/-! ### PUTS over more than one step -/

/-- `s` with another step under way. -/
def withHold (s : State) (h : Hold) : State := { s with hold := h }

section
variable (s : State) (h : Hold)

theorem withHold_console : (withHold s h).console = s.console := rfl

theorem readKbsr_withHold :
    (withHold s h).readKbsr = (s.readKbsr.1, withHold s.readKbsr.2 h) := by
  unfold State.readKbsr
  rw [withHold_console]
  split
  · rfl
  · split <;> rfl

theorem memRead_withHold (a : Word) :
    (withHold s h).memRead a = ((s.memRead a).1, withHold (s.memRead a).2 h) := by
  unfold State.memRead
  split
  · exact readKbsr_withHold s h
  · rfl

/-- The loop sets the hold when it stops, whatever it was before. -/
theorem putsLoop_withHold (n : Nat) (a : Word) : putsLoop n a (withHold s h) = putsLoop n a s := by
  induction n generalizing a s with
  | zero => rfl
  | succ n ih =>
    simp only [putsLoop, memRead_withHold]
    split
    · rfl
    · exact ih ((s.memRead a).2.consoleWrite _) _

end

/-- A loop that stopped before address `a` goes on from there in the next step, for a new lap. -/
theorem step_putsLoop_zero {s : State} (hrun : s.run = .running) (a : Word) :
    step (putsLoop 0 a s) = .next (putsLoop lap a s) := by
  rw [step_held (s := putsLoop 0 a s) hrun (by simp [putsLoop])]
  exact congrArg _ (putsLoop_withHold s (.puts a) lap a)

/-- Some number of steps leads from `s` to `t`. -/
def Reaches (s t : State) : Prop := ∃ k, core.run k s = .next t

theorem Reaches.refl (s : State) : Reaches s s := ⟨0, rfl⟩

theorem Reaches.of_step {s u t : State} (h : step s = .next u) (reaches : Reaches u t) :
    Reaches s t := by
  obtain ⟨k, hk⟩ := reaches
  refine ⟨k + 1, ?_⟩
  have hcore : core.step s = .next u := h
  simp only [Host.Core.run, hcore]
  exact hk

/-- What every loop of at least one read reaches, a loop that is to go on in the next step reaches
too. -/
theorem reaches_putsLoop {s t : State} {a : Word} (hrun : s.run = .running)
    (h : ∀ n, Reaches (putsLoop (n + 1) a s) t) (n : Nat) : Reaches (putsLoop n a s) t := by
  cases n with
  | zero => exact .of_step (step_putsLoop_zero hrun a) (h (lap - 1))
  | succ n => exact h n

/-- Where R143's loop ends, the model's loop gets to, however it is cut into laps. -/
theorem reaches_of_putsEnds {s t : State} {a : Word} (ends : PutsEnds a s t)
    (hrun : s.run = .running) (n : Nat) : Reaches (putsLoop n a s) t := by
  induction ends generalizing n with
  | stop zero =>
    refine reaches_putsLoop hrun (fun n => ?_) n
    rw [putsLoop_of_zero n zero]
    exact .refl _
  | more nonzero _ ih =>
    refine reaches_putsLoop hrun (fun n => ?_) n
    rw [putsLoop_of_ne_zero n nonzero]
    exact ih (by simpa using hrun) n

/-- Settles O41: PUTS begins with a lap of the loop. -/
theorem putsRefinesItsLoop : Obligations.PutsRefinesItsLoop := by
  unfold Obligations.PutsRefinesItsLoop
  intro s t hrun ends
  obtain ⟨k, hk⟩ := reaches_of_putsEnds ends hrun lap
  exact ⟨_, k, exec_trapPuts s, hk⟩

end Sys2Proof.Proofs.Strings
end

section
/-!
The boundary of the block (R190, R194 to R199): what a reset gives, where the words of an image come
to stand, and what each move may change in each phase.
-/

namespace Sys2Proof.Proofs.Boundary

open Sys2Proof Sys2Proof.Machine Sys2Proof.Safety Sys2Proof.Laws
open Sys2Proof.Proofs.RegistersAndReset Sys2Proof.Proofs.ReadsAndStores Sys2Proof.Proofs.Cycle

/-! ### Reset (R190) -/

/-- Settles O58: but for the console a reset gives `State.reset`, whatever the state was. -/
theorem hostResetRestoresEverythingButInput : Obligations.HostResetRestoresEverythingButInput := by
  unfold Obligations.HostResetRestoresEverythingButInput
  intro s
  exact ⟨rfl, ⟨rfl, rfl⟩, rfl, rfl, rfl, reset_reg, read_nil⟩

/-! ### Loading an image (R196, R197) -/

section
variable (s : State) {origin : Nat}

theorem hostLoadImage_cons (h : origin < 65536) (v : Word) (vs : List Word) :
    s.hostLoadImage origin (v :: vs) =
      (s.memWrite (BitVec.ofNat 16 origin) v).hostLoadImage (origin + 1) vs := if_pos h

/-- Nothing is stored from the top of memory on (R197). -/
theorem hostLoadImage_of_le (h : 65536 ≤ origin) (ws : List Word) :
    s.hostLoadImage origin ws = s := by
  cases ws with
  | nil => rfl
  | cons v vs => exact if_neg (Nat.not_lt.mpr h)

end

/-- A load is a number of stores, so only memory changes. -/
theorem hostLoadImage_frame (s : State) (origin : Nat) (ws : List Word) :
    ∃ m, s.hostLoadImage origin ws = { s with mem := m } := by
  induction ws generalizing s origin with
  | nil => exact ⟨s.mem, rfl⟩
  | cons v vs ih =>
    by_cases h : origin < 65536
    · rw [hostLoadImage_cons s h]
      exact ih (s.memWrite (BitVec.ofNat 16 origin) v) (origin + 1)
    · exact ⟨s.mem, hostLoadImage_of_le s (Nat.not_lt.mp h) _⟩

/-- No word is stored below the origin: the load never wraps (R197). -/
theorem read_hostLoadImage_below (s : State) {origin : Nat} (ws : List Word) {a : Word}
    (ha : a.toNat < origin) : (s.hostLoadImage origin ws).mem.read a = s.mem.read a := by
  induction ws generalizing s origin with
  | nil => rfl
  | cons v vs ih =>
    by_cases h : origin < 65536
    · have hne : a ≠ BitVec.ofNat 16 origin := by bv_omega
      rw [hostLoadImage_cons s h, ih _ (Nat.lt_succ_of_lt ha)]
      simp [hne]
    · rw [hostLoadImage_of_le s (Nat.not_lt.mp h)]

/-- From the origin on stand the image's words, and after its last word what stood there before
(R196). -/
theorem read_hostLoadImage (s : State) {origin : Nat} (ws : List Word) {a : Word}
    (ha : origin ≤ a.toNat) : (s.hostLoadImage origin ws).mem.read a =
      (ws[a.toNat - origin]?).getD (s.mem.read a) := by
  induction ws generalizing s origin with
  | nil => rfl
  | cons v vs ih =>
    rw [hostLoadImage_cons s (Nat.lt_of_le_of_lt ha a.isLt)]
    rcases Nat.eq_or_lt_of_le ha with rfl | hlt
    · rw [read_hostLoadImage_below _ vs (Nat.lt_succ_self _)]
      simp
    · have hne : a ≠ BitVec.ofNat 16 origin := by bv_omega
      have hk : a.toNat - origin = a.toNat - (origin + 1) + 1 := by omega
      rw [ih _ hlt, hk, List.getElem?_cons_succ]
      simp [hne]

/-- Settles O59: the words from the origin on, the cells below it, and the frame. -/
theorem imageLoadsFromItsOrigin : Obligations.ImageLoadsFromItsOrigin := by
  unfold Obligations.ImageLoadsFromItsOrigin
  intro s origin ws
  refine ⟨fun a => ?_, ?_⟩
  · split
    · exact read_hostLoadImage s ws ‹_›
    · exact read_hostLoadImage_below s ws (Nat.not_le.mp ‹_›)
  · obtain ⟨m, e⟩ := hostLoadImage_frame s origin ws
    rw [e]
    exact ⟨fun _ => rfl, rfl, rfl, rfl, rfl, rfl, rfl⟩

/-! ### The moves (R199) -/

section
variable {b b' : Block}

theorem act_load_refused (a v : Word) (h : b.phase ≠ .loading) : b.act (.load a v) = none :=
  if_neg h

/-- A step of a running engine that is not abandoned is made, and ends the loading (R199). -/
theorem exists_act_step (hphase : b.phase ≠ .abandoned) (hrun : b.state.run = .running) :
    ∃ t, step b.state = .next t ∧ b.act .step = some ⟨t, .started⟩ := by
  obtain ⟨t, hstep⟩ := stepAlwaysAnswersNext b.state
  exact ⟨t, hstep, by simp [Block.act, Block.step, hphase, hrun, hstep]⟩

/-- Only a reset opens the loading again (R190, R199). -/
theorem eq_reset_of_opens_loading {m : Move} (h : b.act m = some b') (before : b.phase ≠ .loading)
    (after : b'.phase = .loading) : m = .reset := by
  cases m with
  | reset => rfl
  | load a v => exact absurd ((act_load_some b b' a v).1 h).1 before
  | step =>
    obtain ⟨-, ⟨-, t, -, rfl⟩ | ⟨-, rfl⟩⟩ := act_step_some b b' h
    · cases after
    · exact absurd after before
  | cancel =>
    obtain rfl := Option.some.inj h
    cases after
  | supply bs =>
    obtain rfl := Option.some.inj h
    exact absurd after before
  | arrive =>
    obtain rfl := Option.some.inj h
    exact absurd after before

/-- Once loading is over, a move other than a step or a reset changes nothing but the console, and
there only adds to the input (R61, R199, D11). -/
theorem act_changes_console_only {m : Move} (h : b.act m = some b') (hphase : b.phase ≠ .loading)
    (hreset : m ≠ .reset) (hstep : m ≠ .step) :
    ∃ c more, b'.state = { b.state with console := c } ∧
      c.pending ++ c.incoming =
        b.state.console.pending ++ b.state.console.incoming ++ more := by
  cases m with
  | reset => exact absurd rfl hreset
  | step => exact absurd rfl hstep
  | load a v => exact absurd ((act_load_some b b' a v).1 h).1 hphase
  | cancel =>
    obtain rfl := Option.some.inj h
    exact ⟨b.state.console, [], rfl, (List.append_nil _).symm⟩
  | supply bs =>
    obtain rfl := Option.some.inj h
    exact ⟨_, bs, rfl, (List.append_assoc _ _ _).symm⟩
  | arrive =>
    obtain rfl := Option.some.inj h
    obtain ⟨c, e, hinput⟩ := consoleArrive_frame b.state
    exact ⟨c, [], e, by rw [hinput, List.append_nil]⟩

end

/-- Settles O60: a load by its phase, the moves that are always open, and what any move may change. -/
theorem hostMovesFollowTheBoundary : Obligations.HostMovesFollowTheBoundary := by
  unfold Obligations.HostMovesFollowTheBoundary
  intro b
  refine ⟨act_load_refused, fun a v hloading => ?_, act_reset b, exists_act_step, fun m b' h =>
    ⟨eq_reset_of_opens_loading h, fun hphase hreset hstep => ?_⟩⟩
  · exact ⟨_, (act_load_some b _ a v).2 ⟨hloading, rfl⟩, hloading,
      storeWritesItsCellOnly b.state a v⟩
  · obtain ⟨c, more, e, hinput⟩ := act_changes_console_only h hphase hreset hstep
    rw [e]
    exact ⟨fun _ => rfl, rfl, rfl, fun _ => rfl, rfl, rfl, rfl, more, hinput⟩

end Sys2Proof.Proofs.Boundary
end
